-- ==== Sys2Proof/Word.lean ====
section
/-! DEFINITION. The words of the Keccak-1600 core: bytes, 32-bit stream words, 64-bit lanes and the 25-lane array.

Spec: 00_scope.md R7 (widths), R8 (bit 0 is the least significant bit), R9 (flat index `5*y + x`);
10_state.md R21 ("always exactly 25 words; never resized"). -/

namespace Sys2Proof

/-- `u8` (R7). -/
abbrev Byte := BitVec 8

/-- One word of the command or response stream (R70). -/
abbrev Word := BitVec 32

/-- One 64-bit lane (R7, R14). -/
abbrev Lane := BitVec 64

/-- 25 lanes in flat order (R9, R21). -/
abbrev Lanes := Vector Lane 25

/-- Flat index of lane `(x,y)`: `5*y + x` (R9). -/
def laneIndex (x y : Fin 5) : Fin 25 := ⟨5 * y.val + x.val, by omega⟩

end Sys2Proof
end

