-- ==== Sys2Proof/Config.lean ====
section
/-! DEFINITION. The fixed parameters of the block (00_scope.md R5, R6).

The spec leaves no VALUE open ("Nothing in the block is non-deterministic", R16), so Config holds numbers only and
no free value. -/

namespace Sys2Proof.Config

/-- `LANES` (R5). -/
def lanes : Nat := 25

/-- `STATE_BYTES` (R5). -/
def stateBytes : Nat := 200

/-- `ROUNDS` (R5). -/
def rounds : Nat := 24

/-- `FULL_STATE_RATE`: the rate used when the output length is 200 (R5). -/
def fullStateRate : Nat := 136

/-- `OUTLEN_MAX` (R5); `OUTLEN_MIN` is 1. -/
def outlenMax : Nat := 200

/-- `OUTLEN_DEFAULT` (R5). -/
def outlenDefault : Nat := 32

/-- `ONESHOT_PAD_BYTES`: the padding scratch of the one-shot path (R5). -/
def oneShotPadBytes : Nat := 144

/-- `PAD_FIRST` (R5). -/
def padFirst : Byte := 0x01

/-- `PAD_LAST`, ORed into the last byte of the block (R5). -/
def padLast : Byte := 0x80

/-- `REM_CAPACITY`: physical bytes of the remainder buffer, the largest rate (R6, decision D29). -/
def remCapacity : Nat := 198

/-- `DIGEST_CAPACITY` (R6, decision D29). -/
def digestCapacity : Nat := 200

end Sys2Proof.Config
end

