-- ==== Sys2Proof/Syntax.lean ====
section
/-! DEFINITION. The eight commands of the command set `EVO-KECCAK-CORE/1`, one constructor per row of
spec/opcode_table.json (30_encoding.md R79).

An operand has the type its rule gives it: `IMM16` is a `Nat` (R71, R77), `OFF` and `LEN` are signed (R74) and bounds
are computed in `Int` (R7), a payload is a byte sequence (R11, R73, R74). `DLEN` is the length of the payload. -/

namespace Sys2Proof

/-- One command with its operands and payload. -/
inductive Instr where
  /-- KINIT `n` (R160). -/
  | kinit (n : Nat)
  /-- KRESET (R168). -/
  | kreset
  /-- KUPDATE `data, OFF, LEN` (R162). -/
  | kupdate (data : List Byte) (off len : Int)
  /-- KDIGEST (R172). -/
  | kdigest
  /-- KHASH `n, M` (R190). -/
  | khash (n : Nat) (msg : List Byte)
  /-- KPERMUTE (R110). -/
  | kpermute
  /-- KRDLANE `i` (R112). -/
  | krdlane (i : Nat)
  /-- KSTATUS (R180). -/
  | kstatus
deriving DecidableEq, Repr

end Sys2Proof
end

