-- ==== Sys2Proof/WellFormed.lean ====
section
/-! DEFINITION. Which commands have an encoding.

These are the three checks of the assembler (30_encoding.md R87): an immediate fits 16 bits, `OFF` and `LEN` fit `i32`,
and a payload is at most 2^32−1 bytes. Nothing else is refused: `kinit 0`, `krdlane 30` and `kupdate "ab", 1, 5` are
encodable and raise their errors at run time. -/

namespace Sys2Proof

/-- The value fits the 16-bit immediate field (R71, R87). -/
def fitsImm16 (n : Nat) : Bool := decide (n < 2 ^ 16)

/-- The value fits a 32-bit two's-complement word (R7, R74, R87). -/
def fitsI32 (v : Int) : Bool := decide (-(2 ^ 31) ≤ v ∧ v < 2 ^ 31)

/-- The byte sequence has a 32-bit length (R73, R74, R87). -/
def fitsDlen (data : List Byte) : Bool := decide (data.length < 2 ^ 32)

/-- The command has an encoding (R87). -/
def Instr.wf : Instr → Bool
  | .kinit n => fitsImm16 n
  | .kreset => true
  | .kupdate data off len => fitsDlen data && fitsI32 off && fitsI32 len
  | .kdigest => true
  | .khash n msg => fitsImm16 n && fitsDlen msg
  | .kpermute => true
  | .krdlane i => fitsImm16 i
  | .kstatus => true

end Sys2Proof
end

