-- ==== Sys2Proof/Decode.lean ====
section
/-! DEFINITION. The command encoding (30_encoding.md R70–R86): byte packing, the opcode map, the framing, the decoder,
and the encoder written from the same rules.

The decoder is total on every word sequence. It answers a command, or names why the packet is illegal, or says that
the packet has not wholly arrived. Whether an illegal packet is answered with `IllegalCommand` or `Halted` is the
processor's business (Machine/Processor.lean), so it is not decided here. -/

namespace Sys2Proof

/-! ### Bytes and words (R8, R52, R76) -/

/-- `byte(v, j) = v[8j+7:8j]` (R8). -/
def byteAt {w : Nat} (v : BitVec w) (j : Nat) : Byte := v.extractLsb' (8 * j) 8

/-- Little-endian value of a byte sequence, `Σ b_j · 2^(8j)` (R8). -/
def leNat : List Byte → Nat
  | [] => 0
  | b :: bs => b.toNat + 256 * leNat bs

/-- Up to four bytes as one stream word, byte `j` at bits `8j+7:8j` and missing bytes 0 (R52, R76). -/
def leWord (bs : List Byte) : Word := BitVec.ofNat 32 (leNat bs)

/-- `LE64`: eight bytes as one lane (R8). -/
def le64 (bs : List Byte) : Lane := BitVec.ofNat 64 (leNat bs)

/-- The four bytes of a stream word, least significant first (R52). -/
def wordBytes (w : Word) : List Byte := [byteAt w 0, byteAt w 1, byteAt w 2, byteAt w 3]

/-- A byte sequence as stream words, padding bytes of the last word 0 (R76, R78). -/
def packBytes : List Byte → List Word
  | [] => []
  | a :: b :: c :: d :: rest => leWord [a, b, c, d] :: packBytes rest
  | short => [leWord short]

/-- The first `n` bytes of a sequence of payload words (R76); what follows them is padding and is ignored. -/
def unpackBytes (n : Nat) (ws : List Word) : List Byte := (ws.flatMap wordBytes).take n

/-- `⌈n/4⌉` words hold `n` bytes (R72, R75). -/
def wordsFor (n : Nat) : Nat := (n + 3) / 4

/-! ### The command word and the opcode map (R71, R72, R79) -/

/-- `OPC = W0[31:24]` (R71). -/
def opcField (w : Word) : Nat := (w.extractLsb' 24 8).toNat

/-- `RSV = W0[23:16]` (R71). -/
def rsvField (w : Word) : Nat := (w.extractLsb' 16 8).toNat

/-- `IMM16 = W0[15:0]`, zero-extended (R71, R77). -/
def immField (w : Word) : Nat := (w.extractLsb' 0 16).toNat

/-- The assigned opcodes (R79). -/
inductive Opcode where
  | kinit | kreset | kupdate | kdigest | khash | kpermute | krdlane | kstatus
deriving DecidableEq, Repr

/-- The three packet formats (R72). -/
inductive Format where
  /-- `W0` only. -/
  | r
  /-- `W0`, `DLEN`, payload. -/
  | h
  /-- `W0`, `DLEN`, `OFF`, `LEN`, payload. -/
  | u
deriving DecidableEq, Repr

/-- The number of an opcode (R79). -/
def opcodeNumber : Opcode → Nat
  | .kinit => 0x01
  | .kreset => 0x02
  | .kupdate => 0x03
  | .kdigest => 0x04
  | .khash => 0x05
  | .kpermute => 0x06
  | .krdlane => 0x07
  | .kstatus => 0x08

/-- The opcode map; `0x00` and `0x09`–`0xFF` are unassigned (R79, R83). -/
def opcodeOf (opc : Nat) : Option Opcode :=
  match opc with
  | 0x01 => some .kinit
  | 0x02 => some .kreset
  | 0x03 => some .kupdate
  | 0x04 => some .kdigest
  | 0x05 => some .khash
  | 0x06 => some .kpermute
  | 0x07 => some .krdlane
  | 0x08 => some .kstatus
  | _ => none

/-- The opcode alone selects the format (R72). -/
def formatOf : Opcode → Format
  | .khash => .h
  | .kupdate => .u
  | .kinit | .kreset | .kdigest | .kpermute | .krdlane | .kstatus => .r

/-- Whether `IMM16` is an operand of the command (R77); where it is not, it must be 0 (R82). -/
def takesImm : Opcode → Bool
  | .kinit | .khash | .krdlane => true
  | .kreset | .kupdate | .kdigest | .kpermute | .kstatus => false

/-- The `W0` mask of a row of the opcode map (R79). -/
def rowMask (op : Opcode) : Word := if takesImm op then 0xFFFF0000 else 0xFFFFFFFF

/-- The `W0` match of a row of the opcode map (R79). -/
def rowMatch (op : Opcode) : Word := BitVec.ofNat 32 (opcodeNumber op * 2 ^ 24)

/-! ### Framing (R75, R80, R84) -/

/-- Extension words between `W0` and the payload (R72). -/
def extWords : Format → Nat
  | .r => 0
  | .h => 1
  | .u => 3

/-- Payload words of a packet of that format whose first extension word is `dlen` (R72, R75). -/
def payloadWords (fmt : Format) (dlen : Word) : Nat :=
  match fmt with
  | .r => 0
  | .h => wordsFor dlen.toNat
  | .u => wordsFor dlen.toNat

/-- Packet length in words, once every extension word has arrived (R75); `none` while one is missing (R80).
`RSV`, `IMM16`, `OFF` and `LEN` never enter it; an unassigned opcode frames as one word (R84). -/
def frameLength (ws : List Word) : Option Nat :=
  match ws with
  | [] => none
  | w0 :: ext =>
    match opcodeOf (opcField w0) with
    | none => some 1
    | some op =>
      if ext.length < extWords (formatOf op) then none
      else some (1 + extWords (formatOf op) + payloadWords (formatOf op) (ext.headD 0))

/-! ### The decoder (R80–R86) -/

/-- Why a packet is illegal (R81–R83). -/
inductive Illegal where
  /-- Opcode `0x00` or `0x09`–`0xFF` (R83). -/
  | unassignedOpcode
  /-- `RSV ≠ 0` (R81). -/
  | reservedNonzero
  /-- `IMM16 ≠ 0` for a command that has no immediate (R82). -/
  | immediateNonzero
deriving DecidableEq, Repr

/-- What the decoder reads at the head of the command stream. -/
inductive Decoded where
  /-- Some word of the packet has not arrived (R85). -/
  | incomplete
  /-- A whole packet of `len` words that is no command (R81–R84). -/
  | illegal (why : Illegal) (len : Nat)
  /-- A whole packet of `len` words that is the command `i`. -/
  | command (i : Instr) (len : Nat)
deriving DecidableEq, Repr

/-- The command of a whole packet whose `RSV` and `IMM16` have been accepted (R73, R74, R76, R77). -/
def readOperands (op : Opcode) (w0 : Word) (ext : List Word) : Instr :=
  match op with
  | .kinit => .kinit (immField w0)
  | .kreset => .kreset
  | .kupdate =>
    .kupdate (unpackBytes (ext.headD 0).toNat (ext.drop 3)) ((ext.drop 1).headD 0).toInt ((ext.drop 2).headD 0).toInt
  | .kdigest => .kdigest
  | .khash => .khash (immField w0) (unpackBytes (ext.headD 0).toNat (ext.drop 1))
  | .kpermute => .kpermute
  | .krdlane => .krdlane (immField w0)
  | .kstatus => .kstatus

/-- The checks on `W0` of a whole packet of `len` words, and its operands (R80–R83). -/
def decodeFramed (len : Nat) (w0 : Word) (ext : List Word) : Decoded :=
  match opcodeOf (opcField w0) with
  | none => .illegal .unassignedOpcode len
  | some op =>
    if rsvField w0 ≠ 0 then .illegal .reservedNonzero len
    else if !takesImm op && immField w0 != 0 then .illegal .immediateNonzero len
    else .command (readOperands op w0 ext) len

/-- The decode procedure of R80, up to its halt check: the packet at the head of the words that have arrived. -/
def decode (ws : List Word) : Decoded :=
  match ws, frameLength ws with
  | w0 :: ext, some len => if ws.length < len then .incomplete else decodeFramed len w0 ext
  | _, _ => .incomplete

/-! ### The encoder (R71–R76, R87) -/

/-- A command word: `OPC` in bits 31:24, `RSV = 0`, `IMM16` in bits 15:0 (R71, R87). -/
def commandWord (op : Opcode) (imm : Nat) : Word := rowMatch op ||| BitVec.ofNat 32 imm

/-- The words of a command, as the assembler writes them (R87). -/
def encode : Instr → List Word
  | .kinit n => [commandWord .kinit n]
  | .kreset => [commandWord .kreset 0]
  | .kupdate data off len =>
    [commandWord .kupdate 0, BitVec.ofNat 32 data.length, BitVec.ofInt 32 off, BitVec.ofInt 32 len] ++ packBytes data
  | .kdigest => [commandWord .kdigest 0]
  | .khash n msg => [commandWord .khash n, BitVec.ofNat 32 msg.length] ++ packBytes msg
  | .kpermute => [commandWord .kpermute 0]
  | .krdlane i => [commandWord .krdlane i]
  | .kstatus => [commandWord .kstatus 0]

/-- Packet length of a command (R75). -/
def packetLength : Instr → Nat
  | .kupdate data _ _ => 4 + wordsFor data.length
  | .khash _ msg => 2 + wordsFor msg.length
  | .kinit _ | .kreset | .kdigest | .kpermute | .krdlane _ | .kstatus => 1

/-! ### The host's numbering of an instruction's bits -/

/-- The stream words of an instruction whose bits are `w`: bit 0 is the least significant bit of the first word, a later
word's bits count on from it, and every bit above `nbits` is 0, up to the end of the packet that these bits frame. -/
def tableWords (nbits w : Nat) : List Word :=
  let given := (List.range ((nbits + 31) / 32)).map fun k => BitVec.ofNat 32 ((w % 2 ^ nbits) >>> (32 * k))
  match frameLength (given ++ [0, 0, 0]) with
  | some len => given ++ List.replicate (len - given.length) 0
  | none => given

/-- The instruction that the decoder reads from an opcode-table word. -/
def decodeTableWord (nbits w : Nat) : Option Instr :=
  match decode (tableWords nbits w) with
  | .command i _ => some i
  | .illegal _ _ => none
  | .incomplete => none

end Sys2Proof
end

