-- ==== Sys2Proof/Machine/State.lean ====
section
/-! DEFINITION. The state of one instance (10_state.md R20–R37), the reasons a step is not taken, and reset.

R20: "The architectural state of one instance is exactly the following. Nothing else persists between commands."
The last four fields are not the block's storage: they are its two streams and its two input signals, which the step
reads (R50, R70, R230, R247). The scratch buffers `T`, `P`, `F` persist nowhere (R31) and are local to the meanings
that use them. -/

namespace Sys2Proof.Machine

/-- `FSM`, the state of the incremental machine (R26). -/
inductive Fsm where
  | fresh
  | accumulating
  | finalized
deriving DecidableEq, Repr

/-- The result codes (R200). -/
inductive ResultCode where
  | ok
  | invalidArgument
  | outOfRange
  | internalInvariantViolation
  | illegalCommand
  | halted
deriving DecidableEq, Repr

structure State where
  /-- `S[0..24]` (R21). -/
  lanes : Lanes
  /-- `csp`: words consumed since the last hardware reset (R22). -/
  csp : Nat
  /-- `OUTLEN` in bytes (R23). -/
  outlen : Nat
  /-- `RATE` in bytes (R24). -/
  rate : Nat
  /-- `REM[0..RATE)`, the architectural bytes of the remainder buffer (R25). -/
  rem : List Byte
  /-- `REM_LEN` (R25). -/
  remLen : Nat
  /-- `FSM` (R26). -/
  fsm : Fsm
  /-- `LAST_ERR` (R27). -/
  lastErr : ResultCode
  /-- `HALTED` (R28). -/
  halted : Bool
  /-- `DIGEST` and `DIGEST_VALID` together, as an optional byte sequence (R29 allows this form). -/
  digest : Option (List Byte)
  /-- The command stream from `csp` on: words that have arrived and are not yet consumed, oldest first (R22, R70). -/
  input : List Word
  /-- The response stream: words written that the host has not yet read, oldest first (R50, R78). -/
  output : List Word
  /-- The hardware reset input is asserted (R230). -/
  resetIn : Bool
  /-- The platform can accept response words (R247). -/
  respReady : Bool
deriving DecidableEq, Repr

/-- Why a step is not taken. Neither reason is an error of the block: the processor is stuck, its state is unchanged,
and it goes on once the host acts (R85, R247). `Host.Outcome` has no fourth outcome to say so. -/
inductive Fault where
  /-- Raised by `step` when the packet at `csp` has not wholly arrived (R85). Safe: nothing is claimed to happen. -/
  | stuckAwaitingWords
  /-- Raised by `step` when a packet is ready and the platform cannot accept a response word (R247). Safe: nothing is
  claimed to happen. -/
  | heldAwaitingResponse
deriving DecidableEq, Repr

/-- Why an instruction has no meaning. -/
inductive Refusal where
  /-- Raised by an arm of `exec` whose instruction is not modelled yet. Safe. No arm does so now. -/
  | notModelled (mnemonic : String)
deriving DecidableEq, Repr

/-- Every field at the value of the reset table (R36). The streams are empty (R231), the reset input is no longer
asserted, and the platform accepts responses. -/
def State.reset : State where
  lanes := Vector.replicate 25 0
  csp := 0
  outlen := 32
  rate := 136
  rem := List.replicate 136 0
  remLen := 0
  fsm := .fresh
  lastErr := .ok
  halted := false
  digest := none
  input := []
  output := []
  resetIn := false
  respReady := true

end Sys2Proof.Machine
end

