-- ==== Sys2Proof/Machine/Flags.lean ====
section
/-! DEFINITION. The status word and the result codes' numbers. The block has no condition codes (10_state.md R34):
"The outcome of each command is its result code in the response", also recorded in `LAST_ERR`. What it has in their
place is the status word `SW` (R33, R180). -/

namespace Sys2Proof.Machine

/-- The number of a result code (R200). -/
def codeNumber : ResultCode → Nat
  | .ok => 0
  | .invalidArgument => 1
  | .outOfRange => 2
  | .internalInvariantViolation => 3
  | .illegalCommand => 4
  | .halted => 5

/-- `code(FSM)` (R180). -/
def fsmNumber : Fsm → Nat
  | .fresh => 0
  | .accumulating => 1
  | .finalized => 2

/-- `DIGEST_VALID` (R29). -/
def digestValid (s : State) : Bool := s.digest.isSome

/-- The status word `SW` (R33), assembled as in R180. -/
def statusWord (s : State) : Word :=
  BitVec.ofNat 32 (fsmNumber s.fsm)
    ||| BitVec.ofNat 32 (digestValid s).toNat <<< 2
    ||| BitVec.ofNat 32 s.halted.toNat <<< 3
    ||| BitVec.ofNat 32 (codeNumber s.lastErr) <<< 4
    ||| BitVec.ofNat 32 s.remLen <<< 8
    ||| BitVec.ofNat 32 s.outlen <<< 16
    ||| BitVec.ofNat 32 s.rate <<< 24

end Sys2Proof.Machine
end

