-- ==== Sys2Proof/Machine/Permutation.lean ====
section
/-! DEFINITION. The permutation core: theta, rho and pi, chi, iota, the round and `KeccakF` (40_permutation.md
R100–R109), with its two constant tables (R104, R105) and the two derivations that cross-check them (R114, R115). -/

namespace Sys2Proof.Machine

/-! ### Lanes (R9) -/

/-- 25 zero lanes. -/
def zeroLanes : Lanes := Vector.replicate 25 0

/-- `A[x,y]` (R9). -/
def laneXY (A : Lanes) (x y : Fin 5) : Lane := A[laneIndex x y]

/-- `A[i]` by flat index (R9); every caller keeps `i ≤ 24`. -/
def laneAt (A : Lanes) (i : Nat) : Lane := (A[i]?).getD 0

/-- The 25-lane array whose lane `(x,y)` is `f x y`, in flat order `5*y + x` (R9). -/
def tabulate (f : Fin 5 → Fin 5 → Lane) : Lanes :=
  #v[f 0 0, f 1 0, f 2 0, f 3 0, f 4 0,
     f 0 1, f 1 1, f 2 1, f 3 1, f 4 1,
     f 0 2, f 1 2, f 2 2, f 3 2, f 4 2,
     f 0 3, f 1 3, f 2 3, f 3 3, f 4 3,
     f 0 4, f 1 4, f 2 4, f 3 4, f 4 4]

/-- Circular left rotation by `n mod 64` (R10). -/
def rotl64 (v : Lane) (n : Nat) : Lane := v.rotateLeft n

/-! ### Constant tables (R104, R105) -/

/-- The table of R104 as it is printed: row `k` holds `RC[k]` and `RC[k + 12]`. -/
def roundConstantRows : Vector (Lane × Lane) 12 :=
  #v[(0x0000000000000001, 0x000000008000808B),
     (0x0000000000008082, 0x800000000000008B),
     (0x800000000000808A, 0x8000000000008089),
     (0x8000000080008000, 0x8000000000008003),
     (0x000000000000808B, 0x8000000000008002),
     (0x0000000080000001, 0x8000000000000080),
     (0x8000000080008081, 0x000000000000800A),
     (0x8000000000008009, 0x800000008000000A),
     (0x000000000000008A, 0x8000000080008081),
     (0x0000000000000088, 0x8000000000008080),
     (0x0000000080008009, 0x0000000080000001),
     (0x000000008000000A, 0x8000000080008008)]

/-- The rotation offsets, row `x`, column `y`, indexed by the SOURCE position (R102, R105). -/
def rotationOffsets : Vector (Vector Nat 5) 5 :=
  #v[#v[0, 36, 3, 41, 18],
     #v[1, 44, 10, 45, 2],
     #v[62, 6, 43, 15, 61],
     #v[28, 55, 25, 21, 56],
     #v[27, 20, 39, 8, 14]]

/-- `RC[r]` (R104). -/
def roundConstant (r : Fin 24) : Lane :=
  let row := roundConstantRows[r.val % 12]
  if r.val < 12 then row.1 else row.2

/-- `ROT[x][y]` (R105). -/
def rotationOffset (x y : Fin 5) : Nat := rotationOffsets[x][y]

/-! ### The step mappings (R101–R103, R106) -/

/-- `C[x]`, the parity of column `x` (R101). -/
def columnParity (A : Lanes) (x : Fin 5) : Lane :=
  laneXY A x 0 ^^^ laneXY A x 1 ^^^ laneXY A x 2 ^^^ laneXY A x 3 ^^^ laneXY A x 4

/-- `D[x] = C[x-1] ^ rotl64(C[x+1], 1)`, indices modulo 5 (R101). -/
def thetaEffect (A : Lanes) (x : Fin 5) : Lane := columnParity A (x - 1) ^^^ rotl64 (columnParity A (x + 1)) 1

/-- Theta (R101). -/
def theta (A : Lanes) : Lanes := tabulate fun x y => laneXY A x y ^^^ thetaEffect A x

/-- Rho and pi, fused (R102). R102 names where lane `(x,y)` goes: `B[y, 2x+3y]`. Read from the destination `(X,Y)`,
the source is `y = X` and `x = X + 3Y`, since `2(X + 3Y) + 3X = Y` modulo 5. -/
def rhoPi (A : Lanes) : Lanes :=
  tabulate fun X Y => rotl64 (laneXY A (X + 3 * Y) X) (rotationOffset (X + 3 * Y) X)

/-- Chi (R103). -/
def chi (A : Lanes) : Lanes :=
  tabulate fun x y => laneXY A x y ^^^ (~~~laneXY A (x + 1) y &&& laneXY A (x + 2) y)

/-- Iota for round `r` (R106). -/
def iota (A : Lanes) (r : Fin 24) : Lanes := A.set 0 (A[0] ^^^ roundConstant r)

/-- One round (R107). -/
def permRound (A : Lanes) (r : Fin 24) : Lanes := iota (chi (rhoPi (theta A))) r

/-- `KeccakF`: rounds 0 to 23 in order (R108). -/
def keccakF (A : Lanes) : Lanes := (List.finRange 24).foldl permRound A

/-! ### Derivations of the tables (R114, R115) -/

/-- One step of the LFSR of R114: shift left, and reduce by `0x171` when bit 8 is set. -/
def lfsrStep (R : Nat) : Nat := if (2 * R).testBit 8 then (2 * R) ^^^ 0x171 else 2 * R

/-- `rc(t)`: bit 0 of the register after `t mod 255` steps from 1 (R114). -/
def lfsrBit (t : Nat) : Bool := (Nat.repeat lfsrStep (t % 255) 1).testBit 0

/-- `RC[r]` by R114: bit `2^j − 1` is `rc(j + 7r)` for `j = 0..6`, every other bit 0. -/
def derivedRoundConstant (r : Nat) : Lane :=
  (List.range 7).foldl (fun acc j => if lfsrBit (j + 7 * r) then acc ||| (1 : Lane) <<< (2 ^ j - 1) else acc) 0

/-- One step of the walk of R115: `(x,y) ← (y, 2x+3y)`, modulo 5. -/
def walkStep (p : Fin 5 × Fin 5) : Fin 5 × Fin 5 := (p.2, 2 * p.1 + 3 * p.2)

/-- The position that the walk of R115 visits at time `t`. -/
def walkAt (t : Nat) : Fin 5 × Fin 5 := Nat.repeat walkStep t (1, 0)

end Sys2Proof.Machine
end

