-- ==== Sys2Proof/Machine/Sponge.lean ====
section
/-! DEFINITION. The sponge engine and the padding encoder (41_sponge_padding.md R130–R146). They are datapath units that
the commands of Machine/Incremental.lean and Machine/OneShot.lean share (R145). -/

namespace Sys2Proof.Machine

/-! ### Byte buffers (R11) -/

/-- `zeros(n)` (R11). -/
def zeroBytes (n : Nat) : List Byte := List.replicate n 0

/-- `buf[at .. at+|bs|) <- bs`; every caller keeps the range inside the buffer. -/
def writeBytes (buf : List Byte) (pos : Nat) (bs : List Byte) : List Byte :=
  buf.take pos ++ bs ++ buf.drop (pos + bs.length)

/-! ### Rate (R130, R132) -/

/-- `rate(n)` in bytes, an `Int`: 136 for `n = 200`, otherwise `200 − 2n` (R130). -/
def rateOf (n : Nat) : Int := if n = Config.outlenMax then Config.fullStateRate else Config.stateBytes - 2 * (n : Int)

/-- `W(rate) = ⌊rate/8⌋`, the lanes that a block is XORed into (R132). -/
def lanesPerBlock (rate : Nat) : Nat := rate / 8

/-! ### Absorption (R134, R135) -/

/-- XOR a block into the leading `W(rate)` lanes; the others receive no XOR (R133, R134). -/
def xorBlock (A : Lanes) (blk : List Byte) (rate : Nat) : Lanes :=
  tabulate fun x y =>
    let k := (laneIndex x y).val
    if k < lanesPerBlock rate then laneXY A x y ^^^ le64 ((blk.drop (8 * k)).take 8) else laneXY A x y

/-- `AbsorbBlock` (R134). -/
def absorbBlock (A : Lanes) (blk : List Byte) (rate : Nat) : Lanes := keccakF (xorBlock A blk rate)

/-- `Absorb`: each block in order (R135). -/
def absorbBlocks (A : Lanes) (blocks : List (List Byte)) (rate : Nat) : Lanes :=
  blocks.foldl (fun A blk => absorbBlock A blk rate) A

/-- The loop `while |d| − i ≥ rate` of R143, R165 and R190, for at most `fuel` turns: the full blocks it absorbs, in
order, and the bytes that remain. `fuel = |d|` is enough for every rate above 0. -/
def takeBlocks (fuel : Nat) (rate : Nat) (d : List Byte) : List (List Byte) × List Byte :=
  match fuel with
  | 0 => ([], d)
  | fuel + 1 =>
    if rate ≤ d.length then
      let r := takeBlocks fuel rate (d.drop rate)
      (d.take rate :: r.1, r.2)
    else ([], d)

/-- The rate-sized blocks of a byte sequence, and its last bytes, fewer than `rate` (R143, R165, R166). -/
def splitBlocks (rate : Nat) (d : List Byte) : List (List Byte) × List Byte := takeBlocks d.length rate d

/-! ### Padding (R137, R139) -/

/-- The padding encoder's writes into the first `rate` bytes of a zero buffer: the remainder, `0x01` after it, and `0x80`
ORed into byte `rate − 1` (R137). -/
def padInto (P : List Byte) (rem : List Byte) (rate : Nat) : List Byte :=
  let P := writeBytes P 0 rem
  let P := P.set rem.length Config.padFirst
  P.modify (rate - 1) (· ||| Config.padLast)

/-- `PadBlock`: the padding encoder on a rate-sized zero buffer (R137). -/
def padBlock (rem : List Byte) (rate : Nat) : List Byte := padInto (zeroBytes rate) rem rate

/-- `AbsorbFinal` (R139). -/
def absorbFinal (A : Lanes) (rem : List Byte) (rate : Nat) : Lanes := absorbBlock A (padBlock rem rate) rate

/-! ### Squeeze (R53, R141) -/

/-- State byte `k` is byte `k mod 8` of lane `⌊k/8⌋` (R53). -/
def stateByte (A : Lanes) (k : Nat) : Byte := byteAt (laneAt A (k / 8)) (k % 8)

/-- `Squeeze`: the first `n` bytes of the state (R141). -/
def squeeze (A : Lanes) (n : Nat) : List Byte := (List.range n).map (stateByte A)

/-! ### The sponge function (R143) -/

/-- `SpongeHash(M, n)` (R143), of a valid `rate(n)`. -/
def spongeHash (M : List Byte) (n : Nat) : List Byte :=
  let rate := (rateOf n).toNat
  let r := splitBlocks rate M
  squeeze (absorbFinal (absorbBlocks zeroLanes r.1 rate) r.2 rate) n

end Sys2Proof.Machine
end

