-- ==== Sys2Proof/Machine/Operands.lean ====
section
/-! DEFINITION. The checks and selections of the commands' operands: the output length of KINIT and KHASH (R161, R191,
R192), KUPDATE's window into its payload (R163), KRDLANE's lane index (R112).

A check answers the result code it raises, or `none`. Each is made before the command changes any state (R208), in the
order of R207. -/

namespace Sys2Proof.Machine

/-- KINIT's checks of `n`: range first, then the rate (R160, R161). -/
def kinitError (n : Nat) : Option ResultCode :=
  if n = 0 ∨ n > Config.outlenMax then some .invalidArgument
  else if rateOf n ≤ 0 then some .internalInvariantViolation
  else none

/-- KHASH's checks of `n`: range first, then the rate against the 144-byte padding scratch (R190–R192). -/
def khashError (n : Nat) : Option ResultCode :=
  if n = 0 ∨ n > Config.outlenMax then some .invalidArgument
  else if rateOf n ≤ 0 ∨ rateOf n > Config.oneShotPadBytes then some .internalInvariantViolation
  else none

/-- KUPDATE's checks, in `Int` (R163): `LEN < 0`, then `OFF < 0`, then `OFF + LEN > DLEN`. -/
def windowError (dlen : Nat) (off len : Int) : Option ResultCode :=
  if len < 0 then some .invalidArgument
  else if off < 0 then some .outOfRange
  else if off + len > (dlen : Int) then some .outOfRange
  else none

/-- `[Payload(OFF + j) for j in 0 .. LEN-1]`, for an accepted window (R162, R167). -/
def payloadWindow (data : List Byte) (off len : Int) : List Byte := (data.drop off.toNat).take len.toNat

/-- KRDLANE's check: `i > 24` (R112). -/
def laneIndexError (i : Nat) : Option ResultCode := if i > 24 then some .outOfRange else none

end Sys2Proof.Machine
end

