-- ==== Sys2Proof/Machine/Ops.lean ====
section
/-! DEFINITION. The operations over the state that the meanings share: responding, raising an error (the block's only
exception, 60_exceptions.md R200–R212), the halt gate, hardware reset, and the object's Fresh state. -/

namespace Sys2Proof.Machine

/-! ### Responses (R12, R78) -/

/-- The words of one response: `Q0` with the code in bits 7:0 and zeros above, then the payload (R78). -/
def responseWords (code : ResultCode) (payload : List Word) : List Word := BitVec.ofNat 32 (codeNumber code) :: payload

/-- `Respond(code, out)`: append one response to the response stream (R12, R78). -/
def respond (code : ResultCode) (payload : List Word) (s : State) : State :=
  { s with output := s.output ++ responseWords code payload }

/-- `LAST_ERR <- OK; Respond(OK, out)`, the end of every accepted command but KSTATUS (R27). -/
def complete (payload : List Word) (s : State) : State := respond .ok payload { s with lastErr := .ok }

/-! ### Errors and the halt (R12, R205–R209) -/

/-- `raise`: the one way an error is taken. `LAST_ERR` records codes 1–4, `InternalInvariantViolation` also halts the
block (R205), `Halted` records nothing (R206), and nothing else changes (R208). There is no vector and nothing to
return to (R209, R210). -/
def raise (e : ResultCode) (s : State) : State :=
  match e with
  | .halted => respond .halted [] s
  | .internalInvariantViolation =>
    respond .internalInvariantViolation [] { s with lastErr := .internalInvariantViolation, halted := true }
  | .ok => respond .ok [] { s with lastErr := .ok }
  | .invalidArgument => respond .invalidArgument [] { s with lastErr := .invalidArgument }
  | .outOfRange => respond .outOfRange [] { s with lastErr := .outOfRange }
  | .illegalCommand => respond .illegalCommand [] { s with lastErr := .illegalCommand }

/-- `HALTED = 1` rejects the command with `Halted` before its own checks (R206, R207). -/
def unlessHalted (body : State → State) (s : State) : State := if s.halted then raise .halted s else body s

/-- A command's own checks, made before it changes any state (R208): raise what they answer, or run it. -/
def checked (error : Option ResultCode) (body : State → State) (s : State) : State :=
  match error with
  | some e => raise e s
  | none => body s

/-- The end of an illegal packet: `Halted` while halted, else `IllegalCommand` (R80, R81–R83, R206). -/
def illegalCommand (s : State) : State := unlessHalted (raise .illegalCommand) s

/-- Hardware reset: every piece of state at its reset value; words of incomplete packets and unread responses are
discarded; it is the only way out of the halt (R205, R230–R232). `respReady` is the platform's signal and stays. -/
def hardwareReset (s : State) : State := { State.reset with respReady := s.respReady }

/-! ### The incremental object (R160, R168) -/

/-- The Fresh object of the present configuration: lanes, remainder and digest cache cleared (R160, R168). -/
def clearObject (s : State) : State :=
  { s with lanes := zeroLanes, rem := zeroBytes s.rate, remLen := 0, digest := none, fsm := .fresh }

/-- `OUTLEN <- n; RATE <- rate(n)` (R23, R24, R160). -/
def configure (n : Nat) (s : State) : State := { s with outlen := n, rate := (rateOf n).toNat }

/-- The valid remainder bytes, `REM[0 .. REM_LEN)` (R25). -/
def pendingBytes (s : State) : List Byte := s.rem.take s.remLen

end Sys2Proof.Machine
end

