-- ==== Sys2Proof/Machine/CoreAccess.lean ====
section
/-! DEFINITION. The two test commands that expose the permutation core: KPERMUTE and KRDLANE (40_permutation.md
R110–R112). -/

namespace Sys2Proof.Machine

/-- KPERMUTE: apply `KeccakF` to the persistent lanes; the object accumulates and its cache is invalid (R110, R111). -/
def execKpermute (s : State) : Host.Outcome State Fault Refusal :=
  .next (unlessHalted (fun s =>
    complete [] { s with lanes := keccakF s.lanes, fsm := .accumulating, digest := none }) s)

/-- A lane as two response words, bits 31:0 first (R52, R112). -/
def laneWords (v : Lane) : List Word := [v.extractLsb' 0 32, v.extractLsb' 32 32]

/-- KRDLANE `i`: answer lane `i` of the persistent state (R112). -/
def execKrdlane (i : Nat) (s : State) : Host.Outcome State Fault Refusal :=
  .next (unlessHalted (checked (laneIndexError i) fun s => complete (laneWords (laneAt s.lanes i)) s) s)

end Sys2Proof.Machine
end

