-- ==== Sys2Proof/Machine/Incremental.lean ====
section
/-! DEFINITION. The commands of the incremental object: KINIT, KUPDATE, KRESET, KDIGEST and KSTATUS (42_incremental.md
R160–R181). A command answers a next state on every path: an error is a response (R209), never a stop. -/

namespace Sys2Proof.Machine

/-! ### KINIT (R160, R161) -/

/-- KINIT `n`: check `n`, configure, and clear the object (R160). -/
def execKinit (n : Nat) (s : State) : Host.Outcome State Fault Refusal :=
  .next (unlessHalted (checked (kinitError n) fun s => complete [] (clearObject (configure n s))) s)

/-! ### KRESET (R168, R169) -/

/-- KRESET: clear the object and keep its configuration (R168). -/
def execKreset (s : State) : Host.Outcome State Fault Refusal :=
  .next (unlessHalted (fun s => complete [] (clearObject s)) s)

/-! ### KUPDATE (R162–R167) -/

/-- Top-up (R164): fill a pending remainder from `d` up to a full block; absorb and clear it if that completes one.
Answers the bytes of `d` that are left. -/
def topUp (d : List Byte) (s : State) : State × List Byte :=
  if s.remLen > 0 then
    let k := min (s.rate - s.remLen) d.length
    let rem := writeBytes s.rem s.remLen (d.take k)
    if s.remLen + k = s.rate then
      ({ s with lanes := absorbBlock s.lanes (rem.take s.rate) s.rate, rem := zeroBytes s.rate, remLen := 0 }, d.drop k)
    else ({ s with rem := rem, remLen := s.remLen + k }, d.drop k)
  else (s, d)

/-- Direct blocks (R165): absorb full blocks from `d`, past the remainder buffer. Answers the tail. -/
def directBlocks (d : List Byte) (s : State) : State × List Byte :=
  let r := splitBlocks s.rate d
  ({ s with lanes := absorbBlocks s.lanes r.1 s.rate }, r.2)

/-- Tail (R166): copy what is left into the remainder buffer. -/
def keepTail (tail : List Byte) (s : State) : State :=
  if tail.length > 0 then { s with rem := writeBytes s.rem 0 tail, remLen := tail.length } else s

/-- Absorb `d`, of at least one byte, into the object (R162, R164–R167). -/
def absorbUpdate (d : List Byte) (s : State) : State :=
  let topped := topUp d s
  let direct := directBlocks topped.2 topped.1
  { keepTail direct.2 direct.1 with fsm := .accumulating, digest := none }

/-- KUPDATE `data, OFF, LEN`: check the window; `LEN = 0` changes nothing but `LAST_ERR` (R162, R163). -/
def execKupdate (data : List Byte) (off len : Int) (s : State) : Host.Outcome State Fault Refusal :=
  .next (unlessHalted (checked (windowError data.length off len) fun s =>
    if len = 0 then complete [] s else complete [] (absorbUpdate (payloadWindow data off len) s)) s)

/-! ### KDIGEST (R172–R175) -/

/-- The digest KDIGEST computes: pad and absorb on a private copy `F` of the lanes, then squeeze (R172, R173). -/
def computeDigest (s : State) : List Byte :=
  let F := absorbFinal s.lanes (pendingBytes s) s.rate
  squeeze F s.outlen

/-- Fill the digest cache if it is invalid (R172); a valid cache is left as it is (R174). -/
def finalizeDigest (s : State) : State :=
  match s.digest with
  | some _ => s
  | none => { s with digest := some (computeDigest s), fsm := .finalized }

/-- `DIGEST[0 .. OUTLEN)` (R172). -/
def digestBytes (s : State) : List Byte := (s.digest.getD []).take s.outlen

/-- KDIGEST: finalize if need be, and answer the digest (R172). -/
def execKdigest (s : State) : Host.Outcome State Fault Refusal :=
  .next (unlessHalted (fun s => let t := finalizeDigest s; complete (packBytes (digestBytes t)) t) s)

/-! ### KSTATUS (R180, R181) -/

/-- KSTATUS: answer the status word; it runs while halted too, and changes no state (R180, R181). -/
def execKstatus (s : State) : Host.Outcome State Fault Refusal := .next (respond .ok [statusWord s] s)

end Sys2Proof.Machine
end

