-- ==== Sys2Proof/Machine/OneShot.lean ====
section
/-! DEFINITION. The one-shot hash command KHASH (43_oneshot.md R190–R195). -/

namespace Sys2Proof.Machine

/-- The one-shot path of R190, on its scratch: the state `T` and the 144-byte padding buffer `P`, both zeroed first, so
that nothing of an earlier command reaches the result (R31). -/
def oneShotHash (msg : List Byte) (n : Nat) : List Byte :=
  let r := (rateOf n).toNat
  let loop := splitBlocks r msg
  let T := absorbBlocks zeroLanes loop.1 r
  let P := padInto (zeroBytes Config.oneShotPadBytes) loop.2 r
  squeeze (absorbBlock T (P.take r) r) n

/-- KHASH `n, M`: check `n`, then answer the hash of `M`; the incremental object is neither read nor written (R190–R192). -/
def execKhash (n : Nat) (msg : List Byte) (s : State) : Host.Outcome State Fault Refusal :=
  .next (unlessHalted (checked (khashError n) (complete (packBytes (oneShotHash msg n)))) s)

end Sys2Proof.Machine
end

