-- ==== Sys2Proof/Machine/Dispatch.lean ====
section
/-! DEFINITION. One arm per command (30_encoding.md R79). -/

namespace Sys2Proof.Machine

def exec (i : Instr) (s : State) : Host.Outcome State Fault Refusal :=
  match i with
  | .kinit n => Sys2Proof.Machine.execKinit n s
  | .kreset => Sys2Proof.Machine.execKreset s
  | .kupdate data off len => Sys2Proof.Machine.execKupdate data off len s
  | .kdigest => Sys2Proof.Machine.execKdigest s
  | .khash n msg => Sys2Proof.Machine.execKhash n msg s
  | .kpermute => Sys2Proof.Machine.execKpermute s
  | .krdlane lane => Sys2Proof.Machine.execKrdlane lane s
  | .kstatus => Sys2Proof.Machine.execKstatus s

end Sys2Proof.Machine
end

