-- ==== Sys2Proof/Machine/Processor.lean ====
section
/-! DEFINITION. The command processor around `exec`: fetching a packet, moving past it, and what the outside world can do
to the block (30_encoding.md R75, R80, R85; 70_reset_and_hazards.md R230–R232, R240, R247). -/

namespace Sys2Proof.Machine

/-- Read the packet at `csp` (R70, R80). -/
def fetch (s : State) : Decoded := decode s.input

/-- `csp <- csp + len`: the words of the packet are consumed (R75). -/
def advance (len : Nat) (s : State) : State := { s with csp := s.csp + len, input := s.input.drop len }

/-- Move past the packet after its command has run (R75, R80). -/
def finish (len : Nat) (o : Host.Outcome State Fault Refusal) : Host.Outcome State Fault Refusal :=
  match o with
  | .next t => .next (advance len t)
  | .fault r => .fault r
  | .refused r => .refused r

/-- Complete a whole packet of `len` words with the outcome `o` of its command: the block holds, and takes no step,
while the platform cannot accept the response (R247). -/
def answer (len : Nat) (o : Host.Outcome State Fault Refusal) (s : State) : Host.Outcome State Fault Refusal :=
  if s.respReady then finish len o else .fault .heldAwaitingResponse

/-- The decode procedure of R80, as one atomic step (R240): an incomplete packet waits with no step (R85), an illegal
one is answered, a command runs. -/
def runPacket (d : Decoded) (s : State) : Host.Outcome State Fault Refusal :=
  match d with
  | .incomplete => .fault .stuckAwaitingWords
  | .illegal _ len => answer len (.next (illegalCommand s)) s
  | .command i len => answer len (exec i s) s

/-- Reset wins over everything (R212); otherwise run the packet at `csp`. -/
def stepProcessor (s : State) : Host.Outcome State Fault Refusal :=
  if s.resetIn then .next (hardwareReset s) else runPacket (fetch s) s

/-! ### The host's side (R15, R70, R78, R230, R247): inputs that land between steps -/

/-- The host sends words (R70). -/
def hostSend (ws : List Word) (s : State) : State := { s with input := s.input ++ ws }

/-- The host reads up to `n` response words, in order (R59, R78). -/
def hostRead (n : Nat) (s : State) : List Word × State := (s.output.take n, { s with output := s.output.drop n })

/-- The host asserts hardware reset (R230). -/
def hostAssertReset (s : State) : State := { s with resetIn := true }

/-- The platform says whether it can accept response words (R247). -/
def platformReady (ready : Bool) (s : State) : State := { s with respReady := ready }

/-- Put a packet's words at `csp`, where `step` fetches, with no reset asserted and the response path free. -/
def placePacket (ws : List Word) (s : State) : State :=
  { s with input := ws ++ s.input.drop ws.length, resetIn := false, respReady := true }

end Sys2Proof.Machine
end

