-- ==== Sys2Proof/Machine/Step.lean ====
section
/-! DEFINITION. One step of the machine, and the host's way to place an instruction where the step fetches it. -/

namespace Sys2Proof.Machine

/-- One step: hardware reset, or one command (R230, R240). -/
def step (s : State) : Host.Outcome State Fault Refusal := stepProcessor s

/-- `s` with the instruction of bits `w` placed at `csp`. -/
def State.withFetchWord (s : State) (nbits w : Nat) : State := placePacket (tableWords nbits w) s

end Sys2Proof.Machine
end

