-- ==== Sys2Proof/Machine/Assembler.lean ====
section
/-! DEFINITION. The assembler (30_encoding.md R87, R88): from one line of text to the words of a packet. It is tooling
with no semantics (decision D28); the words it writes are those of `encode`. -/

namespace Sys2Proof.Machine

/-! ### Data operands (R87) -/

/-- `<data>`: a quoted string, a hex byte string, a repetition, or a concatenation (R87). -/
inductive DataExpr where
  | text (chars : List Char)
  | hex (bytes : List Byte)
  | rep (byte : Byte) (count : Nat)
  | cat (a b : DataExpr)
deriving DecidableEq, Repr

/-- The UTF-8 bytes of one character. -/
def utf8Char (c : Char) : List Byte :=
  let n := c.toNat
  let cont (k : Nat) : Byte := BitVec.ofNat 8 (0x80 + n / 64 ^ k % 64)
  if n < 0x80 then [BitVec.ofNat 8 n]
  else if n < 0x800 then [BitVec.ofNat 8 (0xC0 + n / 64), cont 0]
  else if n < 0x10000 then [BitVec.ofNat 8 (0xE0 + n / 64 ^ 2), cont 1, cont 0]
  else [BitVec.ofNat 8 (0xF0 + n / 64 ^ 3), cont 2, cont 1, cont 0]

/-- `utf8("…")` (R11, R87). -/
def utf8 (cs : List Char) : List Byte := cs.flatMap utf8Char

/-- The bytes of a data operand (R87). -/
def dataBytes : DataExpr → List Byte
  | .text cs => utf8 cs
  | .hex bs => bs
  | .rep b n => List.replicate n b
  | .cat a b => dataBytes a ++ dataBytes b

/-! ### Lines, pseudo-instructions and assembly (R87, R88) -/

/-- A line that holds a command: one of the eight, or one of the four pseudo-instructions (R87, R88). -/
inductive AsmLine where
  | kinit (n : Nat)
  | kreset
  | kupdate (d : DataExpr) (off len : Int)
  | kdigest
  | khash (n : Nat) (d : DataExpr)
  | kpermute
  | krdlane (i : Nat)
  | kstatus
  /-- `knew` -/
  | knew
  /-- `knew <n>` -/
  | knewLength (n : Nat)
  /-- `kupdate <data>` -/
  | kupdateAll (d : DataExpr)
  /-- `khash <data>` -/
  | khashDefault (d : DataExpr)
deriving DecidableEq, Repr

/-- The command of a line, pseudo-instructions expanded (R88). -/
def expandLine : AsmLine → Instr
  | .kinit n => .kinit n
  | .kreset => .kreset
  | .kupdate d off len => .kupdate (dataBytes d) off len
  | .kdigest => .kdigest
  | .khash n d => .khash n (dataBytes d)
  | .kpermute => .kpermute
  | .krdlane i => .krdlane i
  | .kstatus => .kstatus
  | .knew => .kinit Config.outlenDefault
  | .knewLength n => .kinit n
  | .kupdateAll d => .kupdate (dataBytes d) 0 (dataBytes d).length
  | .khashDefault d => .khash Config.outlenDefault (dataBytes d)

/-- The words of a line; `none` for an operand that has no encoding, and for nothing else (R87). -/
def assembleLine (l : AsmLine) : Option (List Word) :=
  if (expandLine l).wf then some (encode (expandLine l)) else none

/-! ### Reading a line of text (R87) -/

inductive Token where
  | name (s : String)
  | number (v : Int)
  | text (cs : List Char)
  | hex (bytes : List Byte)
  | comma
  | lparen
  | rparen
  | plusPlus
deriving DecidableEq, Repr

/-- Where the reader of characters stands. -/
inductive LexState where
  | between
  /-- Inside a name or a number; its characters, last first. -/
  | word (acc : List Char)
  /-- Inside a quoted string; its characters, last first. -/
  | text (acc : List Char)
  /-- Inside a hex byte string; its digits, last first. -/
  | hex (acc : List Nat)
  /-- After the first `+` of `++`. -/
  | plus
  /-- After `;`: the rest of the line is a comment. -/
  | comment
deriving DecidableEq, Repr

/-- The value of a digit, decimal or hexadecimal. -/
def digitValue (c : Char) : Option Nat :=
  let n := c.toNat
  if 48 ≤ n ∧ n ≤ 57 then some (n - 48)
  else if 65 ≤ n ∧ n ≤ 70 then some (n - 55)
  else if 97 ≤ n ∧ n ≤ 102 then some (n - 87)
  else none

/-- The value of a digit sequence in a base, first digit first. -/
def digitsValue (base : Nat) (cs : List Char) : Option Nat :=
  if cs.isEmpty then none
  else cs.foldlM (fun v c => (digitValue c).bind fun d => if d < base then some (base * v + d) else none) 0

/-- A decimal or `0x`-prefixed hexadecimal integer without a sign. -/
def natLiteral (cs : List Char) : Option Nat :=
  match cs with
  | '0' :: 'x' :: ds => digitsValue 16 ds
  | ds => digitsValue 10 ds

/-- A name, or an integer with an optional minus sign. -/
def wordToken (cs : List Char) : Option Token :=
  match cs with
  | [] => none
  | '-' :: ds => (natLiteral ds).map fun n => .number (-(n : Int))
  | c :: _ => if c.isDigit then (natLiteral cs).map fun n => .number n else some (.name (String.ofList cs))

/-- Pairs of hex digits as bytes; an odd digit is refused. -/
def hexPairs : List Nat → Option (List Byte)
  | [] => some []
  | [_] => none
  | a :: b :: rest => (hexPairs rest).map fun bs => BitVec.ofNat 8 (16 * a + b) :: bs

/-- A character that stands between words. -/
def betweenChar (c : Char) (toks : List Token) : Option (LexState × List Token) :=
  if c = ' ' ∨ c = '\t' then some (.between, toks)
  else if c = ',' then some (.between, .comma :: toks)
  else if c = '(' then some (.between, .lparen :: toks)
  else if c = ')' then some (.between, .rparen :: toks)
  else if c = '+' then some (.plus, toks)
  else if c = ';' then some (.comment, toks)
  else if c = '"' then some (.text [], toks)
  else if c.isAlphanum ∨ c = '-' then some (.word [c], toks)
  else none

/-- Read one character; the tokens so far stand last first. -/
def lexChar (st : LexState) (toks : List Token) (c : Char) : Option (LexState × List Token) :=
  match st with
  | .comment => some (.comment, toks)
  | .text acc => if c = '"' then some (.between, .text acc.reverse :: toks) else some (.text (c :: acc), toks)
  | .hex acc =>
    if c = '"' then (hexPairs acc.reverse).map fun bs => (.between, .hex bs :: toks)
    else (digitValue c).map fun d => (.hex (d :: acc), toks)
  | .plus => if c = '+' then some (.between, .plusPlus :: toks) else none
  | .word acc =>
    if c = '"' then (if acc = ['x'] then some (.hex [], toks) else none)
    else if c.isAlphanum then some (.word (c :: acc), toks)
    else (wordToken acc.reverse).bind fun t => betweenChar c (t :: toks)
  | .between => betweenChar c toks

/-- The tokens of a line. -/
def lexLine (cs : List Char) : Option (List Token) :=
  match cs.foldlM (fun p c => lexChar p.1 p.2 c) (LexState.between, []) with
  | some (.between, toks) => some toks.reverse
  | some (.comment, toks) => some toks.reverse
  | some (.word acc, toks) => (wordToken acc.reverse).map fun t => (t :: toks).reverse
  | some (.text _, _) => none
  | some (.hex _, _) => none
  | some (.plus, _) => none
  | none => none

/-- One term of a data operand, and the tokens after it. -/
def parseTerm : List Token → Option (DataExpr × List Token)
  | .text cs :: rest => some (.text cs, rest)
  | .hex bs :: rest => some (.hex bs, rest)
  | .name f :: .lparen :: .number b :: .comma :: .number n :: .rparen :: rest =>
    if f = "rep" ∧ 0 ≤ b ∧ b < 256 ∧ 0 ≤ n then some (.rep (BitVec.ofInt 8 b) n.toNat, rest) else none
  | _ => none

/-- A data operand of at most `fuel` further terms, joined with `++`, and the tokens after it. -/
def parseData (fuel : Nat) (toks : List Token) : Option (DataExpr × List Token) :=
  match fuel with
  | 0 => parseTerm toks
  | fuel + 1 =>
    match parseTerm toks with
    | some (a, .plusPlus :: rest) => (parseData fuel rest).map fun p => (.cat a p.1, p.2)
    | r => r

/-- A non-negative operand. -/
def natOperand (v : Int) : Option Nat := if 0 ≤ v then some v.toNat else none

/-- The line of a mnemonic and its operands (R87, R88). -/
def parseCommand (m : String) (ops : List Token) : Option AsmLine :=
  match m, ops with
  | "kinit", [.number n] => (natOperand n).map .kinit
  | "kreset", [] => some .kreset
  | "kupdate", ops =>
    match parseData ops.length ops with
    | some (d, []) => some (.kupdateAll d)
    | some (d, [.comma, .number off, .comma, .number len]) => some (.kupdate d off len)
    | _ => none
  | "kdigest", [] => some .kdigest
  | "khash", .number n :: .comma :: rest =>
    match parseData rest.length rest, natOperand n with
    | some (d, []), some n => some (.khash n d)
    | _, _ => none
  | "khash", ops =>
    match parseData ops.length ops with
    | some (d, []) => some (.khashDefault d)
    | _ => none
  | "kpermute", [] => some .kpermute
  | "krdlane", [.number i] => (natOperand i).map .krdlane
  | "kstatus", [] => some .kstatus
  | "knew", [] => some .knew
  | "knew", [.number n] => (natOperand n).map .knewLength
  | _, _ => none

/-- The words of a line of text (R87); an empty line and a line of comment give no word. -/
def assembleText (line : String) : Option (List Word) :=
  match lexLine line.toList with
  | none => none
  | some [] => some []
  | some (.name m :: ops) => (parseCommand m ops).bind assembleLine
  | some _ => none

end Sys2Proof.Machine
end

