-- ==== Sys2Proof/Machine/Cost.lean ====
section
/-! DEFINITION. Permutation counts, the block's only cost measure (70_reset_and_hazards.md R245). No meaning reads
them; a cycle count does not exist (R248). -/

namespace Sys2Proof.Machine

/-- The number of `KeccakF` applications of a command in a state (R245). -/
def permutationCount (i : Instr) (s : State) : Nat :=
  if s.halted then 0
  else
    match i with
    | .kinit _ => 0
    | .kreset => 0
    | .kupdate data off len =>
      if windowError data.length off len = none ∧ len ≠ 0 then (s.remLen + len.toNat) / s.rate else 0
    | .kdigest => if digestValid s then 0 else 1
    | .khash n msg => if khashError n = none then msg.length / (rateOf n).toNat + 1 else 0
    | .kpermute => 1
    | .krdlane _ => 0
    | .kstatus => 0

end Sys2Proof.Machine
end

