-- ==== Sys2Proof/Safety.lean ====
section
/-! DEFINITION. What holds between commands (10_state.md R30), what a stream held in the object is (R30, R170), and which
states are quiescent (60_exceptions.md R206). -/

namespace Sys2Proof.Machine

/-- The output lengths whose rate is valid, `1..99` and 200 (R130). -/
def ValidOutlen (n : Nat) : Prop := (1 ≤ n ∧ n ≤ 99) ∨ n = 200

/-- The output lengths that KHASH accepts, `28..99` and 200 (R192). -/
def OneShotOutlen (n : Nat) : Prop := (28 ≤ n ∧ n ≤ 99) ∨ n = 200

/-- The invariants of the architectural state between commands. -/
structure State.Inv (s : State) : Prop where
  /-- `OUTLEN` is a valid output length (R23, R161). -/
  outlen_valid : ValidOutlen s.outlen
  /-- `RATE = rate(OUTLEN)` (R24). -/
  rate_eq : (s.rate : Int) = rateOf s.outlen
  /-- The remainder buffer is "sized exactly to the rate" (R25). -/
  rem_size : s.rem.length = s.rate
  /-- `REM_LEN < RATE` (R25, R30). -/
  remLen_lt : s.remLen < s.rate
  /-- "Bytes `REM[REM_LEN..RATE)` … The rules keep them zero" (R25). -/
  rem_tail : s.rem.drop s.remLen = zeroBytes (s.rate - s.remLen)
  /-- `FSM = FRESH` implies `S = 0`, `REM_LEN = 0` and `DIGEST_VALID = 0` (R30). -/
  fresh : s.fsm = .fresh → s.lanes = zeroLanes ∧ s.remLen = 0 ∧ s.digest = none
  /-- `DIGEST_VALID = 1` exactly when `FSM = FINALIZED` (R29). -/
  cache_valid : s.digest.isSome = true ↔ s.fsm = .finalized
  /-- A valid cache holds the value KDIGEST would compute again (R30). -/
  cache_value : ∀ d, s.digest = some d → d = squeeze (absorbFinal s.lanes (s.rem.take s.remLen) s.rate) s.outlen
  /-- The block is halted exactly while `LAST_ERR` is the fatal code (R27, R28, R205, R206). -/
  halted_iff : s.halted = true ↔ s.lastErr = .internalInvariantViolation
  /-- `Halted` is never recorded (R206). -/
  lastErr_ne : s.lastErr ≠ .halted

/-- The object holds the stream `M`: the lanes have absorbed its full blocks from zero, and the remainder is its last
bytes (R30, R170). -/
def State.HoldsStream (s : State) (M : List Byte) : Prop :=
  s.lanes = absorbBlocks zeroLanes (splitBlocks s.rate M).1 s.rate ∧
  pendingBytes s = (splitBlocks s.rate M).2 ∧ s.remLen = (splitBlocks s.rate M).2.length

/-- The object and its configuration are the same in both states: every field of R20 but `csp`, `LAST_ERR` and `HALTED`. -/
def SameObject (s t : State) : Prop :=
  t.lanes = s.lanes ∧ t.outlen = s.outlen ∧ t.rate = s.rate ∧ t.rem = s.rem ∧ t.remLen = s.remLen ∧ t.fsm = s.fsm ∧
  t.digest = s.digest

/-- The command stream and the input signals are the same in both states: what `exec` never touches. -/
def SamePorts (s t : State) : Prop :=
  t.csp = s.csp ∧ t.input = s.input ∧ t.resetIn = s.resetIn ∧ t.respReady = s.respReady

/-- The padding bytes of the last payload word of a command's packet (R76). -/
def paddingBytes : Instr → Nat
  | .kupdate data _ _ => 4 * wordsFor data.length - data.length
  | .khash _ msg => 4 * wordsFor msg.length - msg.length
  | .kinit _ | .kreset | .kdigest | .kpermute | .krdlane _ | .kstatus => 0

/-- A halted block is quiescent until hardware reset, never in a successful end state (R206). -/
def State.Quiescent (s : State) : Prop := s.halted = true

/-- The commands after which the object still holds the stream it was fed: all but KINIT, KRESET and KPERMUTE (R170,
R244). -/
def keepsStream : Instr → Bool
  | .kinit _ => false
  | .kreset => false
  | .kupdate _ _ _ => true
  | .kdigest => true
  | .khash _ _ => true
  | .kpermute => false
  | .krdlane _ => true
  | .kstatus => true

/-- The bytes that a command adds to the stream: the window of an accepted KUPDATE, nothing otherwise (R170). -/
def streamBytes : Instr → List Byte
  | .kupdate data off len =>
    if windowError data.length off len = none then payloadWindow data off len else []
  | .kinit _ | .kreset | .kdigest | .khash _ _ | .kpermute | .krdlane _ | .kstatus => []

/-- Run commands in order (R59), stopping at a fault or a refusal. -/
def execAll : List Instr → State → Host.Outcome State Fault Refusal
  | [], s => .next s
  | i :: is, s =>
    match exec i s with
    | .next t => execAll is t
    | .fault r => .fault r
    | .refused r => .refused r

end Sys2Proof.Machine
end

