-- ==== Sys2Proof/Certificates/Slice0/Obligations.lean ====
section
/-! DEFINITION. The statements for the provers, in the order of OBLIGATIONS.json. Each docstring names the rule or the
section of spec/ it formalises. -/

open Sys2Proof Sys2Proof.Machine

/-! ### Encoding -/

/-- R71–R76, R79: a well-formed command's words decode to that command, whatever follows them in the stream. -/
def Obligations.DecodeOfEncodeIsTheCommand : Prop :=
  ∀ (i : Instr) (rest : List Word), i.wf = true →
    decode (encode i ++ rest) = .command i (encode i).length

/-- R71–R76: what decodes to a command is its encoding, but for the padding bytes of a last payload word. -/
def Obligations.EncodeOfDecodeIsThePacket : Prop :=
  ∀ (ws : List Word) (i : Instr) (len : Nat), decode ws = .command i len →
    i.wf = true ∧ (encode i).length = len ∧ len ≤ ws.length ∧
    ∀ k, (k + 1 < len ∨ (k + 1 = len ∧ paddingBytes i = 0)) → ws[k]? = (encode i)[k]?

/-- R76: payload byte `j` is byte `j mod 4` of payload word `⌊j/4⌋`, and the padding bytes of the last payload word have
no effect on what is decoded. -/
def Obligations.PayloadBytesAndIgnoredPadding : Prop :=
  (∀ (n : Nat) (ws : List Word) (j : Nat), j < n →
    (unpackBytes n ws)[j]? = (ws[j / 4]?).map fun w => byteAt w (j % 4)) ∧
  (∀ (i : Instr) (last : Word) (rest : List Word), i.wf = true → 0 < paddingBytes i →
    (wordBytes last).take (4 - paddingBytes i) =
      (wordBytes ((encode i).getLastD 0)).take (4 - paddingBytes i) →
    decode ((encode i).dropLast ++ last :: rest) = .command i (encode i).length)

/-- R79, R81, R82: the mask and match of an opcode's row say the conditions on the fields of `W0`: `OPC` is the row's
opcode, `RSV = 0`, and `IMM16 = 0` where it is no operand. What the decoder does with such words is
`EveryRowOfTheOpcodeMapDecodes`. -/
def Obligations.MaskAndMatchAreTheFieldConditions : Prop :=
  ∀ (op : Opcode) (w0 : Word),
    w0 &&& rowMask op = rowMatch op ↔
      opcodeOf (opcField w0) = some op ∧ rsvField w0 = 0 ∧ (takesImm op = true ∨ immField w0 = 0)

/-- R90: the words written out in the spec, one encoding per opcode, decode to the commands they stand for, and the
illegal ones are illegal. -/
def Obligations.SpecExampleWordsDecode : Prop :=
  decode [0x01000020] = .command (.kinit 32) 1 ∧
  decode [0x010000C8] = .command (.kinit 200) 1 ∧
  decode [0x02000000] = .command .kreset 1 ∧
  decode [0x03000000, 0x00000003, 0x00000000, 0x00000003, 0x00636261]
    = .command (.kupdate [0x61, 0x62, 0x63] 0 3) 5 ∧
  decode [0x03000000, 0x00000000, 0x00000000, 0x00000000] = .command (.kupdate [] 0 0) 4 ∧
  decode [0x03000000, 0x00000002, 0x00000000, 0xFFFFFFFF, 0x00006261]
    = .command (.kupdate [0x61, 0x62] 0 (-1)) 5 ∧
  decode [0x04000000] = .command .kdigest 1 ∧
  decode [0x05000020, 0x00000000] = .command (.khash 32 []) 2 ∧
  decode [0x05000020, 0x00000005, 0x64636261, 0x00000065]
    = .command (.khash 32 [0x61, 0x62, 0x63, 0x64, 0x65]) 4 ∧
  decode [0x06000000] = .command .kpermute 1 ∧
  decode [0x07000018] = .command (.krdlane 24) 1 ∧
  decode [0x08000000] = .command .kstatus 1 ∧
  decode [0x02010000] = .illegal .reservedNonzero 1 ∧
  decode [0x09000000] = .illegal .unassignedOpcode 1 ∧
  decode [0x00000000] = .illegal .unassignedOpcode 1

/-- R87, R88, R71–R80: the words that the assembler writes for a line it accepts decode to the line's command,
pseudo-instructions expanded as R88 says. -/
def Obligations.AssembledLinesDecode : Prop :=
  (∀ (l : AsmLine) (ws rest : List Word), assembleLine l = some ws →
    decode (ws ++ rest) = .command (expandLine l) ws.length) ∧
  expandLine .knew = .kinit 32 ∧
  (∀ n, expandLine (.knewLength n) = .kinit n) ∧
  (∀ d, expandLine (.kupdateAll d) = .kupdate (dataBytes d) 0 (dataBytes d).length) ∧
  (∀ d, expandLine (.khashDefault d) = .khash 32 (dataBytes d))

/-! ### The command processor -/

/-- R80: when the words at `csp` decode to a command, the step is `exec` of that command, and then `csp` moves past its
packet. -/
def Obligations.StepRunsTheDecodedCommand : Prop :=
  ∀ (s : State) (i : Instr) (len : Nat), s.resetIn = false → s.respReady = true → decode s.input = .command i len →
    ∃ t, exec i s = .next t ∧ step s = .next { t with csp := s.csp + len, input := s.input.drop len }

/-- R75: `csp` moves by the packet length, which only `OPC` and `DLEN` fix, whether the packet runs or is rejected. -/
def Obligations.CspMovesByTheFramedLength : Prop :=
  ∀ (s t : State) (w0 : Word) (ext : List Word), s.resetIn = false → s.input = w0 :: ext → step s = .next t →
    ∃ len, t.csp = s.csp + len ∧ t.input = s.input.drop len ∧ len ≤ s.input.length ∧
      len = (match opcodeOf (opcField w0) with
        | some .kupdate => 4 + ((ext.headD 0).toNat + 3) / 4
        | some .khash => 2 + ((ext.headD 0).toNat + 3) / 4
        | _ => 1)

/-- R81–R83: a whole packet with an unassigned opcode, a non-zero `RSV`, or a non-zero `IMM16` where the command has no
immediate raises `IllegalCommand`: the framed words are consumed, `LAST_ERR` is written, and nothing else changes. -/
def Obligations.IllegalPacketsRaiseIllegalCommand : Prop :=
  ∀ (s : State) (w0 : Word) (ext : List Word) (len : Nat),
    s.resetIn = false → s.respReady = true → s.halted = false →
    s.input = w0 :: ext → frameLength s.input = some len → len ≤ s.input.length →
    (opcField w0 = 0 ∨ 9 ≤ opcField w0 ∨ rsvField w0 ≠ 0 ∨
      (opcField w0 ∈ [0x02, 0x03, 0x04, 0x06, 0x08] ∧ immField w0 ≠ 0)) →
    step s = .next { s with lastErr := .illegalCommand, output := s.output ++ [4], csp := s.csp + len,
                            input := s.input.drop len }

/-- R85: a packet of which some word, extension or payload, has not arrived is not executed and nothing is answered: the
processor is stuck; when the missing words of a command have arrived, it runs. -/
def Obligations.IncompletePacketWaits : Prop :=
  (∀ (s : State), s.resetIn = false →
    (s.input = [] ∨ ∃ w0 ext, s.input = w0 :: ext ∧
      (match opcodeOf (opcField w0) with
        | some .kupdate => ext.length < 3 + ((ext.headD 0).toNat + 3) / 4
        | some .khash => ext.length < 1 + ((ext.headD 0).toNat + 3) / 4
        | _ => False)) →
    step s = .fault .stuckAwaitingWords) ∧
  (∀ (i : Instr) (s : State) (k : Nat), i.wf = true → s.resetIn = false → s.respReady = true →
    k < (encode i).length → s.input = (encode i).take k →
    step s = .fault .stuckAwaitingWords ∧
    ∃ t, exec i (hostSend ((encode i).drop k) s) = .next t ∧
      step (hostSend ((encode i).drop k) s) = .next { t with csp := s.csp + (encode i).length, input := [] })

/-- R247: while the platform cannot accept a response word the block takes no step, whatever packet is ready. That it
holds before the command executes, with the whole response still to be accepted, is the model's choice (log entry 2,
DESIGN CHOICE): R247 does not say which comes first. -/
def Obligations.HeldWhileResponsesAreRefused : Prop :=
  ∀ (s : State), s.resetIn = false → s.respReady = false →
    (∀ t, step s ≠ .next t) ∧ (decode s.input ≠ .incomplete → step s = .fault .heldAwaitingResponse)

/-- R230, R231: asserted hardware reset sets every piece of state to its reset value and discards words and unread
responses, from every state, halted ones included; it is the only way to clear `HALTED`. Two clauses are the model's and
not the spec's: that whole packets still waiting are discarded too (`t.input = []`, log entry 9, DEDUCED: R231 names the
words of an incomplete packet), and that the reset input is taken back and the platform's readiness kept (`t.resetIn`,
`t.respReady`, log entry 8, DESIGN CHOICE). -/
def Obligations.HardwareResetRestoresEverything : Prop :=
  (∀ (s : State), s.resetIn = true →
    ∃ t, step s = .next t ∧ t.lanes = Vector.replicate 25 0 ∧ t.csp = 0 ∧ t.outlen = 32 ∧ t.rate = 136 ∧
      t.rem = List.replicate 136 0 ∧ t.remLen = 0 ∧ t.fsm = .fresh ∧ t.digest = none ∧ t.lastErr = .ok ∧
      t.halted = false ∧ t.input = [] ∧ t.output = [] ∧ t.resetIn = false ∧ t.respReady = s.respReady) ∧
  (∀ (s t : State), s.halted = true → step s = .next t → t.halted = false → s.resetIn = true)

/-- R36: the state after reset, and its status word. -/
def Obligations.ResetValuesAndStatusWord : Prop :=
  State.reset.lanes = Vector.replicate 25 0 ∧ State.reset.csp = 0 ∧ State.reset.outlen = 32 ∧
  State.reset.rate = 136 ∧ State.reset.rem = List.replicate 136 0 ∧ State.reset.remLen = 0 ∧
  State.reset.fsm = .fresh ∧ State.reset.digest = none ∧ State.reset.lastErr = .ok ∧ State.reset.halted = false ∧
  statusWord State.reset = 0x88200000

/-! ### Invariants and whole-machine rules -/

/-- R30: the invariants between commands hold after reset. -/
def Obligations.ResetMeetsTheInvariants : Prop := State.reset.Inv

/-- R30: every step keeps the invariants between commands. -/
def Obligations.EveryStepKeepsTheInvariants : Prop :=
  ∀ (s t : State), s.Inv → step s = .next t → t.Inv

/-- R21: the lanes after a step, by what the step ran. Hardware reset, an accepted KINIT and KRESET zero them; an accepted
KUPDATE absorbs the full blocks of the pending bytes followed by its window; KPERMUTE permutes them; nothing else, neither
another command nor a rejected one nor an illegal packet, changes a lane. So no command writes an arbitrary value into
one. -/
def Obligations.LanesChangeOnlyByAbsorbingPermutingZeroing : Prop :=
  ∀ (s t : State), s.Inv → step s = .next t →
    t.lanes =
      if s.resetIn then Vector.replicate 25 0
      else if s.halted then s.lanes
      else
        match decode s.input with
        | .incomplete => s.lanes
        | .illegal _ _ => s.lanes
        | .command i _ =>
          match i with
          | .kinit n => if (1 ≤ n ∧ n ≤ 99) ∨ n = 200 then Vector.replicate 25 0 else s.lanes
          | .kreset => Vector.replicate 25 0
          | .kupdate data off len =>
            if 0 ≤ len ∧ 0 ≤ off ∧ off + len ≤ data.length then
              absorbBlocks s.lanes (splitBlocks s.rate (pendingBytes s ++ payloadWindow data off len)).1 s.rate
            else s.lanes
          | .kdigest => s.lanes
          | .khash _ _ => s.lanes
          | .kpermute => keccakF s.lanes
          | .krdlane _ => s.lanes
          | .kstatus => s.lanes

/-- R23, R24: only an accepted KINIT and hardware reset write `OUTLEN` and `RATE`. -/
def Obligations.ConfigurationWrittenOnlyByKinitAndReset : Prop :=
  ∀ (s t : State), step s = .next t → s.resetIn = false →
    (t.outlen = s.outlen ∧ t.rate = s.rate) ∨
    ∃ n len, decode s.input = .command (.kinit n) len ∧ s.halted = false ∧ ValidOutlen n ∧ t.outlen = n ∧
      (t.rate : Int) = rateOf n

/-- R26: the transitions of `FSM`, for hardware reset, for every command from every state that meets the invariants, and
for an illegal packet. A command is accepted when its response code is `OK`. -/
def Obligations.FsmTransitionTable : Prop :=
  (∀ (s t : State), s.resetIn = true → step s = .next t → t.fsm = .fresh) ∧
  (∀ (i : Instr) (s t : State) (code : ResultCode) (out : List Word), s.Inv → exec i s = .next t →
    t.output = s.output ++ responseWords code out →
    t.fsm = (if code ≠ .ok then s.fsm else
      match i with
      | .kinit _ => .fresh
      | .kreset => .fresh
      | .kupdate _ _ len => if len = 0 then s.fsm else .accumulating
      | .kdigest => .finalized
      | .khash _ _ => s.fsm
      | .kpermute => .accumulating
      | .krdlane _ => s.fsm
      | .kstatus => s.fsm)) ∧
  (∀ (s t : State) (why : Illegal) (len : Nat), s.resetIn = false → decode s.input = .illegal why len →
    step s = .next t → t.fsm = s.fsm)

/-- R27: `LAST_ERR` records the result code of every packet but a KSTATUS command that is decoded while not halted; a
KSTATUS command never writes it; while halted nothing does; hardware reset sets it to `OK`. -/
def Obligations.LastErrRecordsTheResult : Prop :=
  (∀ (i : Instr) (s t : State) (code : ResultCode) (out : List Word), exec i s = .next t →
    t.output = s.output ++ responseWords code out →
    t.lastErr = (if s.halted = true ∨ i = .kstatus then s.lastErr else code)) ∧
  (∀ (s t : State) (why : Illegal) (len : Nat), s.resetIn = false → decode s.input = .illegal why len →
    step s = .next t → t.lastErr = (if s.halted then s.lastErr else .illegalCommand)) ∧
  (∀ (s t : State), s.resetIn = true → step s = .next t → t.lastErr = .ok)

/-- R28, R205, R206: once halted, only hardware reset leaves the halt; every step but that one keeps the object, its
configuration, `LAST_ERR` and `HALTED`. -/
def Obligations.OnlyHardwareResetLeavesTheHalt : Prop :=
  ∀ (s t : State), s.halted = true → s.resetIn = false → step s = .next t →
    t.halted = true ∧ t.lastErr = s.lastErr ∧ SameObject s t

/-- R206: while halted, a well-formed KSTATUS executes normally, and every other packet, illegal ones included, is framed
and answered with `Halted`, which changes no state, not even `LAST_ERR`. -/
def Obligations.HaltedRejectsAllButKstatus : Prop :=
  (∀ (s : State), s.halted = true → exec .kstatus s = .next { s with output := s.output ++ [0, statusWord s] }) ∧
  (∀ (i : Instr) (s : State), s.halted = true → i ≠ .kstatus →
    exec i s = .next { s with output := s.output ++ [5] }) ∧
  (∀ (s : State) (why : Illegal) (len : Nat), s.halted = true → s.resetIn = false → s.respReady = true →
    decode s.input = .illegal why len →
    step s = .next { s with output := s.output ++ [5], csp := s.csp + len, input := s.input.drop len })

/-- R208: errors are precise and leave no side effects but `LAST_ERR` for codes 1–4 and `HALTED` for code 3; the
rejected packet is consumed like any other. -/
def Obligations.ErrorsArePreciseWithoutSideEffects : Prop :=
  (∀ (i : Instr) (s t : State) (code : ResultCode) (out : List Word), exec i s = .next t →
    t.output = s.output ++ responseWords code out → code ≠ .ok →
    out = [] ∧ SameObject s t ∧ SamePorts s t ∧
    t.lastErr = (if code = .halted then s.lastErr else code) ∧
    t.halted = (if code = .internalInvariantViolation then true else s.halted)) ∧
  (∀ (s t : State) (why : Illegal) (len : Nat), s.resetIn = false → decode s.input = .illegal why len →
    step s = .next t →
    SameObject s t ∧ t.halted = s.halted ∧ t.lastErr = (if s.halted then s.lastErr else .illegalCommand) ∧
    t.csp = s.csp + len ∧ t.input = s.input.drop len)

/-- R78: exactly one response per packet, appended to the response stream; an error has no payload, and on `OK` the
payload is what the command's row says, the bytes of a digest packed four to a word with zero padding. The digest of
KDIGEST has `OUTLEN` bytes in every state that meets the invariants. -/
def Obligations.OneResponsePerPacket : Prop :=
  (∀ (i : Instr) (s t : State), s.Inv → exec i s = .next t →
    ∃ code out, t.output = s.output ++ (BitVec.ofNat 32 (codeNumber code) :: out) ∧
      (code ≠ .ok → out = []) ∧
      (code = .ok →
        match i with
        | .kinit _ => out = []
        | .kreset => out = []
        | .kupdate _ _ _ => out = []
        | .kpermute => out = []
        | .kdigest => ∃ bs : List Byte, bs.length = s.outlen ∧ out.length = (s.outlen + 3) / 4 ∧
            out.flatMap wordBytes = bs ++ List.replicate (4 * out.length - s.outlen) 0
        | .khash n _ => ∃ bs : List Byte, bs.length = n ∧ out.length = (n + 3) / 4 ∧
            out.flatMap wordBytes = bs ++ List.replicate (4 * out.length - n) 0
        | .krdlane k => out = [(laneAt s.lanes k).extractLsb' 0 32, (laneAt s.lanes k).extractLsb' 32 32]
        | .kstatus => out = [statusWord s])) ∧
  (∀ (s t : State) (why : Illegal) (len : Nat), s.resetIn = false → decode s.input = .illegal why len →
    step s = .next t → t.output = s.output ++ [if s.halted then 5 else 4])

/-! ### KINIT and KRESET -/

/-- R160: KINIT. A length in `1..99` or 200 configures the object and clears it; a length outside `1..200` is
rejected; `100..199` halts the block, configuration and object kept. Nothing else changes. -/
def Obligations.KinitByOutputLength : Prop :=
  ∀ (n : Nat) (s : State), s.halted = false →
    (((1 ≤ n ∧ n ≤ 99) ∨ n = 200) →
      ∃ r : Nat, (r : Int) = (if n = 200 then 136 else 200 - 2 * (n : Int)) ∧
        exec (.kinit n) s = .next
          { s with outlen := n, rate := r, lanes := Vector.replicate 25 0, rem := List.replicate r 0, remLen := 0,
                   digest := none, fsm := .fresh, lastErr := .ok, output := s.output ++ [0] }) ∧
    ((n = 0 ∨ 200 < n) →
      exec (.kinit n) s = .next { s with lastErr := .invalidArgument, output := s.output ++ [1] }) ∧
    ((100 ≤ n ∧ n ≤ 199) →
      exec (.kinit n) s = .next
        { s with lastErr := .internalInvariantViolation, halted := true, output := s.output ++ [3] })

/-- R168: KRESET clears the object, keeps its configuration, and is accepted in every `FSM` state. -/
def Obligations.KresetClearsAndKeepsConfiguration : Prop :=
  ∀ (s : State), s.halted = false →
    exec .kreset s = .next
      { s with lanes := Vector.replicate 25 0, rem := List.replicate s.rate 0, remLen := 0, digest := none,
               fsm := .fresh, lastErr := .ok, output := s.output ++ [0] }

/-- R161: KINIT with the present length does exactly what KRESET does. -/
def Obligations.KinitWithSameLengthIsKreset : Prop :=
  ∀ (s : State), s.Inv → exec (.kinit s.outlen) s = exec .kreset s

/-! ### KUPDATE -/

/-- R163: the checks of KUPDATE in their order, and `LEN = 0` as a no-op. -/
def Obligations.KupdateChecksItsWindow : Prop :=
  ∀ (data : List Byte) (off len : Int) (s : State), s.halted = false →
    (len < 0 →
      exec (.kupdate data off len) s = .next { s with lastErr := .invalidArgument, output := s.output ++ [1] }) ∧
    ((0 ≤ len ∧ (off < 0 ∨ off + len > data.length)) →
      exec (.kupdate data off len) s = .next { s with lastErr := .outOfRange, output := s.output ++ [2] }) ∧
    ((len = 0 ∧ 0 ≤ off ∧ off ≤ data.length) →
      exec (.kupdate data off len) s = .next { s with lastErr := .ok, output := s.output ++ [0] })

/-- R162, R164–R167: an accepted KUPDATE appends its window to the stream. With `B` the pending bytes followed by the
window, every full rate-sized block of `B` is absorbed in order and the bytes that are left become the remainder, zeros
after them; the object accumulates, its cache is invalid, and nothing else changes. -/
def Obligations.KupdateAbsorbsItsWindow : Prop :=
  ∀ (data : List Byte) (off len : Int) (s : State), s.Inv → s.halted = false →
    0 < len → 0 ≤ off → off + len ≤ data.length →
    ∃ (blocks : List (List Byte)) (tail : List Byte),
      s.rem.take s.remLen ++ (data.drop off.toNat).take len.toNat = blocks.flatten ++ tail ∧
      (∀ b ∈ blocks, b.length = s.rate) ∧ tail.length < s.rate ∧
      exec (.kupdate data off len) s = .next
        { s with lanes := blocks.foldl (fun A b => absorbBlock A b s.rate) s.lanes,
                 rem := tail ++ List.replicate (s.rate - tail.length) 0, remLen := tail.length,
                 fsm := .accumulating, digest := none, lastErr := .ok, output := s.output ++ [0] }

/-- R167, R245: the number of blocks that an accepted KUPDATE absorbs, each by one permutation, is
`⌊(REM_LEN + LEN) / RATE⌋`. -/
def Obligations.KupdatePermutationCount : Prop :=
  ∀ (data : List Byte) (off len : Int) (s t : State), s.Inv → s.halted = false →
    0 < len → 0 ≤ off → off + len ≤ data.length → exec (.kupdate data off len) s = .next t →
    permutationCount (.kupdate data off len) s = (s.remLen + len.toNat) / s.rate ∧
    ∃ blocks : List (List Byte), blocks.length = permutationCount (.kupdate data off len) s ∧
      (∀ b ∈ blocks, b.length = s.rate) ∧ t.lanes = absorbBlocks s.lanes blocks s.rate

/-! ### KDIGEST -/

/-- R172, R174, R245: KDIGEST with an invalid cache pads and absorbs on a private copy with one permutation, answers the first
`OUTLEN` bytes, caches them, and leaves `S`, `REM` and `REM_LEN` unchanged; with a valid cache it answers the cached
bytes, without a permutation, and changes nothing but `LAST_ERR`. The counts are R174's and R245's, by the function of
log entry 20 (DEDUCED), which no meaning reads. -/
def Obligations.KdigestFinalizesACopyOrServesTheCache : Prop :=
  (∀ (s : State), s.halted = false → s.digest = none →
    ∃ d, d = squeeze (absorbFinal s.lanes (s.rem.take s.remLen) s.rate) s.outlen ∧ d.length = s.outlen ∧
      exec .kdigest s = .next
        { s with digest := some d, fsm := .finalized, lastErr := .ok, output := s.output ++ 0 :: packBytes d } ∧
      permutationCount .kdigest s = 1) ∧
  (∀ (s : State) (d : List Byte), s.halted = false → s.digest = some d → d.length = s.outlen →
    exec .kdigest s = .next { s with lastErr := .ok, output := s.output ++ 0 :: packBytes d } ∧
    permutationCount .kdigest s = 0)

/-- R29, R30, R174: the cache is never observable in a value: in every state that meets the invariants KDIGEST answers
what it would answer with the cache thrown away. -/
def Obligations.CacheIsNeverObservableInTheDigest : Prop :=
  ∀ (s t u : State), s.Inv → exec .kdigest s = .next t → exec .kdigest { s with digest := none } = .next u →
    t.output = u.output

/-! ### KHASH -/

/-- R190, R191, R192: KHASH. A length in `28..99` or 200 answers `SpongeHash(M, n)` and leaves the incremental object
alone; a length outside `1..200` is rejected; `1..27` and `100..199` halt the block, whatever the message. -/
def Obligations.KhashByOutputLength : Prop :=
  ∀ (n : Nat) (msg : List Byte) (s : State), s.halted = false →
    (((28 ≤ n ∧ n ≤ 99) ∨ n = 200) →
      exec (.khash n msg) s = .next
        { s with lastErr := .ok, output := s.output ++ 0 :: packBytes (spongeHash msg n) }) ∧
    ((n = 0 ∨ 200 < n) →
      exec (.khash n msg) s = .next { s with lastErr := .invalidArgument, output := s.output ++ [1] }) ∧
    (((1 ≤ n ∧ n ≤ 27) ∨ (100 ≤ n ∧ n ≤ 199)) →
      exec (.khash n msg) s = .next
        { s with lastErr := .internalInvariantViolation, halted := true, output := s.output ++ [3] })

/-- R190, R194: KHASH shares no state: from any two running states the same packet gets the same response. -/
def Obligations.KhashResponseIndependentOfTheState : Prop :=
  ∀ (n : Nat) (msg : List Byte) (s₁ s₂ t₁ t₂ : State), s₁.halted = false → s₂.halted = false →
    exec (.khash n msg) s₁ = .next t₁ → exec (.khash n msg) s₂ = .next t₂ →
    ∃ out, t₁.output = s₁.output ++ out ∧ t₂.output = s₂.output ++ out

/-! ### KPERMUTE, KRDLANE, KSTATUS -/

/-- R110: KPERMUTE applies `KeccakF` to the lanes, sets `FSM` to `ACCUMULATING` and invalidates the cache. -/
def Obligations.KpermutePermutesTheLanes : Prop :=
  ∀ (s : State), s.halted = false →
    exec .kpermute s = .next
      { s with lanes := keccakF s.lanes, fsm := .accumulating, digest := none, lastErr := .ok,
               output := s.output ++ [0] }

/-- R112: KRDLANE `x + 5y` answers lane `(x,y)`, low word first; an index above 24 raises `OutOfRange`. -/
def Obligations.KrdlaneReadsOneLane : Prop :=
  (∀ (x y : Fin 5) (s : State), s.halted = false →
    exec (.krdlane (5 * y.val + x.val)) s = .next
      { s with lastErr := .ok,
               output := s.output ++ [0, (laneXY s.lanes x y).extractLsb' 0 32, (laneXY s.lanes x y).extractLsb' 32 32] }) ∧
  (∀ (i : Nat) (s : State), s.halted = false → 24 < i →
    exec (.krdlane i) s = .next { s with lastErr := .outOfRange, output := s.output ++ [2] })

/-- R33, R180: KSTATUS, halted or not, answers a word whose fields are the state's, each in its range, and changes no
state. -/
def Obligations.KstatusReportsTheFields : Prop :=
  ∀ (s : State), s.Inv →
    ∃ sw : Word, exec .kstatus s = .next { s with output := s.output ++ [0, sw] } ∧
      (sw.extractLsb' 0 2).toNat = fsmNumber s.fsm ∧
      (sw.extractLsb' 2 1).toNat = (if s.fsm = .finalized then 1 else 0) ∧
      (sw.extractLsb' 3 1).toNat = s.halted.toNat ∧
      (sw.extractLsb' 4 4).toNat = codeNumber s.lastErr ∧
      (sw.extractLsb' 8 8).toNat = s.remLen ∧ s.remLen ≤ 197 ∧
      (sw.extractLsb' 16 8).toNat = s.outlen ∧ 1 ≤ s.outlen ∧ s.outlen ≤ 200 ∧
      (sw.extractLsb' 24 8).toNat = s.rate ∧ 2 ≤ s.rate ∧ s.rate ≤ 198 ∧ s.rate % 2 = 0

/-- R181: KSTATUS is the only command accepted while halted, where it reports `HALTED = 1` and the fatal code; a
malformed one gets `Halted` while halted and `IllegalCommand` otherwise; two in a row answer the same word. -/
def Obligations.KstatusCornerCases : Prop :=
  (∀ (s : State), s.Inv → s.halted = true →
    (∃ sw : Word, exec .kstatus s = .next { s with output := s.output ++ [0, sw] } ∧
      (sw.extractLsb' 3 1).toNat = 1 ∧ (sw.extractLsb' 4 4).toNat = 3) ∧
    ∀ i : Instr, i ≠ .kstatus → exec i s = .next { s with output := s.output ++ [5] }) ∧
  (∀ (s : State) (w0 : Word) (rest : List Word), s.resetIn = false → s.respReady = true → s.input = w0 :: rest →
    opcField w0 = 8 → (rsvField w0 ≠ 0 ∨ immField w0 ≠ 0) →
    step s = .next { s with lastErr := if s.halted then s.lastErr else .illegalCommand,
                            output := s.output ++ [if s.halted then 5 else 4], csp := s.csp + 1, input := rest }) ∧
  (∀ (s t : State), exec .kstatus s = .next t →
    ∃ sw u, t.output = s.output ++ [0, sw] ∧ exec .kstatus t = .next u ∧ u.output = t.output ++ [0, sw])

/-! ### The permutation core -/

/-- R101: theta, lane by lane; a state of even column parities is unchanged. -/
def Obligations.ThetaByLane : Prop :=
  (∀ (A : Lanes) (x y : Fin 5),
    laneXY (theta A) x y = laneXY A x y ^^^
      (laneXY A (x - 1) 0 ^^^ laneXY A (x - 1) 1 ^^^ laneXY A (x - 1) 2 ^^^ laneXY A (x - 1) 3 ^^^ laneXY A (x - 1) 4) ^^^
      rotl64 (laneXY A (x + 1) 0 ^^^ laneXY A (x + 1) 1 ^^^ laneXY A (x + 1) 2 ^^^ laneXY A (x + 1) 3 ^^^
        laneXY A (x + 1) 4) 1) ∧
  (∀ A : Lanes, (∀ x, columnParity A x = 0) → theta A = A)

/-- R102: rho and pi move lane `(x,y)`, rotated by its source offset, to `(y, 2x+3y)`, every destination is written
exactly once, and lane `(0,0)` stays in place with rotation 0. -/
def Obligations.RhoPiMovesEveryLane : Prop :=
  (∀ (A : Lanes) (x y : Fin 5), laneXY (rhoPi A) y (2 * x + 3 * y) = rotl64 (laneXY A x y) (rotationOffset x y)) ∧
  Function.Bijective (fun p : Fin 5 × Fin 5 => (p.2, 2 * p.1 + 3 * p.2)) ∧
  (∀ A : Lanes, laneXY (rhoPi A) 0 0 = laneXY A 0 0)

/-- R103, R106: chi and iota, lane by lane. -/
def Obligations.ChiAndIotaByLane : Prop :=
  (∀ (A : Lanes) (x y : Fin 5),
    laneXY (chi A) x y = laneXY A x y ^^^ (~~~laneXY A (x + 1) y &&& laneXY A (x + 2) y)) ∧
  (∀ (A : Lanes) (r : Fin 24) (x y : Fin 5),
    laneXY (iota A r) x y = if x = 0 ∧ y = 0 then laneXY A 0 0 ^^^ roundConstant r else laneXY A x y)

/-- R10: bit `i` of `rotl64(v, n)` is bit `(i − n) mod 64` of `v`. -/
def Obligations.RotationIsCircular : Prop :=
  ∀ (v : Lane) (n i : Nat), i < 64 → (rotl64 v n).getLsbD i = v.getLsbD ((i + 64 - n % 64) % 64)

/-- R114, R115: the two constant tables are what the LFSR and the walk derive, for all 24 rounds and all 25 offsets. -/
def Obligations.ConstantTablesMatchTheirDerivations : Prop :=
  (∀ r : Fin 24, roundConstant r = derivedRoundConstant r.val) ∧ rotationOffset 0 0 = 0 ∧
  (∀ t : Fin 24, rotationOffset (walkAt t.val).1 (walkAt t.val).2 = (t.val + 1) * (t.val + 2) / 2 % 64) ∧
  (∀ p : Fin 5 × Fin 5, p ≠ (0, 0) → ∃ t : Fin 24, walkAt t.val = p)

/-- R107, R108: `KeccakF` is rounds 0 to 23 in order, each theta, rho and pi, chi, iota. -/
def Obligations.KeccakIsTwentyFourRounds : Prop :=
  ∀ f : Nat → Lanes, (∀ r : Fin 24, f (r.val + 1) = iota (chi (rhoPi (theta (f r.val)))) r) → keccakF (f 0) = f 24

/-- R109: `KeccakF` is a permutation of the 2^1600 states. R109 marks invertibility as from general knowledge and not in
its source, and no rule depends on it. -/
def Obligations.KeccakIsAPermutation : Prop := Function.Bijective keccakF

/-! ### The sponge -/

/-- R130: the rates of `1..200` that are valid, and the value of each. -/
def Obligations.ValidRates : Prop :=
  ∀ n : Nat, 1 ≤ n → n ≤ 200 →
    ((0 < rateOf n ∧ rateOf n ≤ 200) ↔ (n ≤ 99 ∨ n = 200)) ∧
    rateOf n = (if n = 200 then 136 else 200 - 2 * (n : Int))

/-- R132–R134, R8: a block is XORed into lanes `0..W−1` as little-endian words, byte `8i + j` of the block into byte `j` of
lane `i`, and lanes `W..24` receive no XOR; bytes at or after `8·W` do not reach the state. That those bytes are dropped
is decision D11 (R132; log entry 25, DEDUCED), which D11 asks a claim to cite. -/
def Obligations.AbsorptionIsLaneGranular : Prop :=
  ∀ (A : Lanes) (blk : List Byte) (rate : Nat), blk.length = rate → rate ≤ 200 →
    (∃ B : Lanes, absorbBlock A blk rate = keccakF B ∧
      (∀ i : Fin 25, i.val < rate / 8 → B[i] = A[i] ^^^ le64 ((blk.drop (8 * i.val)).take 8)) ∧
      (∀ i : Fin 25, i.val < rate / 8 → ∀ j, j < 8 →
        blk[8 * i.val + j]? = some ((B[i] ^^^ A[i]).extractLsb' (8 * j) 8)) ∧
      (∀ i : Fin 25, rate / 8 ≤ i.val → B[i] = A[i])) ∧
    (∀ blk' : List Byte, blk'.take (8 * (rate / 8)) = blk.take (8 * (rate / 8)) →
      absorbBlock A blk' rate = absorbBlock A blk rate)

/-- R137, R138: the padded block, byte by byte: the remainder, `0x01` (with `0x80` when it falls on the last byte), zeros,
and `0x80` in the last byte. -/
def Obligations.PadBlockByByte : Prop :=
  ∀ (rem : List Byte) (rate : Nat), rem.length < rate →
    (padBlock rem rate).length = rate ∧
    ∀ j, j < rate → (padBlock rem rate)[j]? =
      if j < rem.length then rem[j]?
      else some ((if j = rem.length then 0x01 else 0x00) ||| (if j = rate - 1 then 0x80 else 0x00))

/-- R53, R141: squeezed byte `k` is bits `8(k mod 8)+7 .. 8(k mod 8)` of lane `⌊k/8⌋`. -/
def Obligations.SqueezeIsLittleEndian : Prop :=
  ∀ (A : Lanes) (n k : Nat) (hk : k < n) (hn : n ≤ 200),
    (squeeze A n).length = n ∧
    (squeeze A n)[k]? = some ((A[k / 8]'(by omega)).extractLsb' (8 * (k % 8)) 8)

/-- R143, R144: `SpongeHash` absorbs the full blocks of the message in order and then one padded block, `⌊|M|/r⌋ + 1`
blocks in all, and squeezes once. -/
def Obligations.SpongeHashAbsorbsTheMessage : Prop :=
  ∀ (M : List Byte) (n r : Nat), ValidOutlen n → (r : Int) = rateOf n →
    ∃ (blocks : List (List Byte)) (tail : List Byte),
      M = blocks.flatten ++ tail ∧ (∀ b ∈ blocks, b.length = r) ∧ tail.length < r ∧ blocks.length = M.length / r ∧
      spongeHash M n = squeeze (absorbBlocks (Vector.replicate 25 0) (blocks ++ [padBlock tail r]) r) n

/-! ### Streams -/

/-- R170: from a state that holds the stream `M`, after any commands but KINIT, KRESET and KPERMUTE that leave the block
running, KDIGEST answers `SpongeHash` of `M` followed by the windows of the accepted KUPDATEs in call order. That a
KUPDATE after KDIGEST continues the stream is decision D13 (R171; log entry 25, DEDUCED), which R242 asks such a claim
to cite. -/
def Obligations.IncrementalDigestIsTheSpongeHashOfTheStream : Prop :=
  ∀ (cmds : List Instr) (s t : State) (M : List Byte), s.Inv → s.HoldsStream M → (∀ c ∈ cmds, keepsStream c = true) →
    execAll cmds s = .next t → t.halted = false →
    ∃ u, exec .kdigest t = .next u ∧
      u.output = t.output ++ 0 :: packBytes (spongeHash (M ++ (cmds.map streamBytes).flatten) s.outlen)

/-- R160, R168, R230: after an accepted KINIT, after KRESET and after hardware reset the object holds the empty stream. -/
def Obligations.FreshObjectHoldsTheEmptyStream : Prop :=
  (∀ (n : Nat) (s t : State), s.halted = false → ValidOutlen n → exec (.kinit n) s = .next t → t.HoldsStream []) ∧
  (∀ (s t : State), s.halted = false → exec .kreset s = .next t → t.HoldsStream []) ∧
  (∀ (s t : State), s.resetIn = true → step s = .next t → t.HoldsStream [])

/-- R193: one-shot and incremental agree. For every length that KHASH accepts, KINIT, then KUPDATEs whose accepted windows
concatenate to `M`, then KDIGEST answers what KHASH of `M` answers. -/
def Obligations.OneShotAgreesWithIncremental : Prop :=
  ∀ (n : Nat) (updates : List Instr) (s a b c d : State), s.Inv → s.halted = false → OneShotOutlen n →
    (∀ i ∈ updates, ∃ data off len, i = .kupdate data off len) →
    exec (.kinit n) s = .next a → execAll updates a = .next b → exec .kdigest b = .next c →
    exec (.khash n (updates.map streamBytes).flatten) s = .next d →
    ∃ out, c.output = b.output ++ out ∧ d.output = s.output ++ out

/-! ### The opcode map and the stream, step by step -/

/-- R79: the opcode map over the decoder, with the numbers of its eight rows. A whole packet whose `W0` matches a row under
its mask decodes to that row's command with the row's format, and what decodes to a command matches that command's row. -/
def Obligations.EveryRowOfTheOpcodeMapDecodes : Prop :=
  (∀ (w0 : Word) (rest : List Word),
    (w0 &&& 0xFFFF0000 = 0x01000000 → decode (w0 :: rest) = .command (.kinit (w0.extractLsb' 0 16).toNat) 1) ∧
    (w0 &&& 0xFFFFFFFF = 0x02000000 → decode (w0 :: rest) = .command .kreset 1) ∧
    (w0 &&& 0xFFFFFFFF = 0x03000000 → ∀ (dlen off len : Word) (payload : List Word),
      rest = dlen :: off :: len :: payload → (dlen.toNat + 3) / 4 ≤ payload.length →
      decode (w0 :: rest) =
        .command (.kupdate (unpackBytes dlen.toNat payload) off.toInt len.toInt) (4 + (dlen.toNat + 3) / 4)) ∧
    (w0 &&& 0xFFFFFFFF = 0x04000000 → decode (w0 :: rest) = .command .kdigest 1) ∧
    (w0 &&& 0xFFFF0000 = 0x05000000 → ∀ (dlen : Word) (payload : List Word),
      rest = dlen :: payload → (dlen.toNat + 3) / 4 ≤ payload.length →
      decode (w0 :: rest) =
        .command (.khash (w0.extractLsb' 0 16).toNat (unpackBytes dlen.toNat payload)) (2 + (dlen.toNat + 3) / 4)) ∧
    (w0 &&& 0xFFFFFFFF = 0x06000000 → decode (w0 :: rest) = .command .kpermute 1) ∧
    (w0 &&& 0xFFFF0000 = 0x07000000 → decode (w0 :: rest) = .command (.krdlane (w0.extractLsb' 0 16).toNat) 1) ∧
    (w0 &&& 0xFFFFFFFF = 0x08000000 → decode (w0 :: rest) = .command .kstatus 1)) ∧
  (∀ (w0 : Word) (rest : List Word) (i : Instr) (len : Nat), decode (w0 :: rest) = .command i len →
    match i with
    | .kinit _ => w0 &&& 0xFFFF0000 = 0x01000000
    | .kreset => w0 &&& 0xFFFFFFFF = 0x02000000
    | .kupdate _ _ _ => w0 &&& 0xFFFFFFFF = 0x03000000
    | .kdigest => w0 &&& 0xFFFFFFFF = 0x04000000
    | .khash _ _ => w0 &&& 0xFFFF0000 = 0x05000000
    | .kpermute => w0 &&& 0xFFFFFFFF = 0x06000000
    | .krdlane _ => w0 &&& 0xFFFF0000 = 0x07000000
    | .kstatus => w0 &&& 0xFFFFFFFF = 0x08000000)

/-- R30, R170: the stream that the object holds, step by step. From a state that meets the invariants and holds `M`, a step
other than a KPERMUTE that runs leaves a state that holds the empty stream after hardware reset, an accepted KINIT or
KRESET, `M` followed by the window after an accepted KUPDATE, and `M` after everything else: rejected commands and illegal
packets, KDIGEST, KHASH, KRDLANE and KSTATUS. That a KUPDATE after KDIGEST continues the stream is decision D13 (R171; log
entry 25, DEDUCED), which R242 asks such a claim to cite. -/
def Obligations.EveryStepKeepsTheStream : Prop :=
  ∀ (s t : State) (M : List Byte), s.Inv → s.HoldsStream M → step s = .next t →
    (∀ len, decode s.input = .command .kpermute len → s.resetIn = true ∨ s.halted = true) →
    t.HoldsStream
      (if s.resetIn then []
      else if s.halted then M
      else
        match decode s.input with
        | .incomplete => M
        | .illegal _ _ => M
        | .command i _ =>
          match i with
          | .kinit n => if (1 ≤ n ∧ n ≤ 99) ∨ n = 200 then [] else M
          | .kreset => []
          | .kupdate data off len =>
            if 0 ≤ len ∧ 0 ≤ off ∧ off + len ≤ data.length then M ++ (data.drop off.toNat).take len.toNat else M
          | .kdigest => M
          | .khash _ _ => M
          | .kpermute => M
          | .krdlane _ => M
          | .kstatus => M)
end

