-- ==== Sys2Proof/Laws/Encoding.lean ====
section
/-! SUPPORT. The small lemmas of the encoding: bytes of a packed word, packing and unpacking, the fields of a command
word, opcodes and their numbers. -/

namespace Sys2Proof

/-! ### Bytes and words -/

theorem byteAt_toNat {w : Nat} (v : BitVec w) (j : Nat) : (byteAt v j).toNat = v.toNat / 2 ^ (8 * j) % 256 := by
  simp [byteAt, Nat.shiftRight_eq_div_pow]

theorem leNat_lt : ∀ bs : List Byte, leNat bs < 256 ^ bs.length
  | [] => by simp [leNat]
  | b :: bs => by
    have h1 := b.isLt
    have h2 := leNat_lt bs
    simp only [leNat, List.length_cons, Nat.pow_succ]
    omega

/-- Byte `j` of a little-endian value is element `j` (R8). -/
theorem leNat_byte : ∀ (bs : List Byte) (j : Nat), leNat bs / 2 ^ (8 * j) % 256 = (bs.getD j 0).toNat
  | [], j => by simp [leNat]
  | b :: bs, 0 => by
    have h1 := b.isLt
    simp only [leNat, Nat.mul_zero, Nat.pow_zero, Nat.div_one, List.getD_cons_zero]; omega
  | b :: bs, j + 1 => by
    have h1 := b.isLt
    have h2 := leNat_byte bs j
    rw [show 8 * (j + 1) = 8 + 8 * j by omega, Nat.pow_add, ← Nat.div_div_eq_div_mul]
    simp only [leNat, List.getD_cons_succ]
    rw [← h2]
    congr 2
    omega

/-- Byte `j` of a word made of little-endian bytes. -/
theorem byteAt_ofNat_leNat (w : Nat) (bs : List Byte) (j : Nat) (h : 8 * j + 8 ≤ w) :
    byteAt (BitVec.ofNat w (leNat bs)) j = bs.getD j 0 := by
  apply BitVec.eq_of_toNat_eq
  rw [byteAt_toNat, BitVec.toNat_ofNat, ← leNat_byte bs j]
  obtain ⟨k, rfl⟩ : ∃ k, w = 8 * j + (8 + k) := ⟨w - 8 * j - 8, by omega⟩
  rw [Nat.pow_add, Nat.mod_mul_right_div_self, Nat.pow_add, Nat.mod_mul_right_mod]

theorem byteAt_leWord (bs : List Byte) (j : Nat) (h : j < 4) : byteAt (leWord bs) j = bs.getD j 0 :=
  byteAt_ofNat_leNat 32 bs j (by omega)

theorem byteAt_le64 (bs : List Byte) (j : Nat) (h : j < 8) : byteAt (le64 bs) j = bs.getD j 0 :=
  byteAt_ofNat_leNat 64 bs j (by omega)

@[simp] theorem wordBytes_length (w : Word) : (wordBytes w).length = 4 := rfl

theorem wordBytes_getElem? (w : Word) (j : Nat) (h : j < 4) : (wordBytes w)[j]? = some (byteAt w j) := by
  match j, h with
  | 0, _ => rfl
  | 1, _ => rfl
  | 2, _ => rfl
  | 3, _ => rfl

theorem wordBytes_leWord_four (a b c d : Byte) : wordBytes (leWord [a, b, c, d]) = [a, b, c, d] := by
  simp [wordBytes, byteAt_leWord]

theorem wordBytes_leWord_take (bs : List Byte) (h : bs.length ≤ 4) : (wordBytes (leWord bs)).take bs.length = bs := by
  match bs, h with
  | [], _ => rfl
  | [a], _ => simp [wordBytes, byteAt_leWord]
  | [a, b], _ => simp [wordBytes, byteAt_leWord]
  | [a, b, c], _ => simp [wordBytes, byteAt_leWord]
  | [a, b, c, d], _ => simp [wordBytes, byteAt_leWord]

/-- A word is the little-endian value of its bytes. -/
theorem leWord_wordBytes (w : Word) : leWord (wordBytes w) = w := by
  apply BitVec.eq_of_toNat_eq
  have := w.isLt
  simp only [leWord, wordBytes, leNat, BitVec.toNat_ofNat, byteAt_toNat]
  omega

/-! ### Packing (R76) -/

theorem packBytes_short (bs : List Byte) (h0 : bs ≠ []) (h : bs.length < 4) : packBytes bs = [leWord bs] := by
  match bs, h0, h with
  | [_], _, _ => rfl
  | [_, _], _, _ => rfl
  | [_, _, _], _, _ => rfl

theorem packBytes_four (a b c d : Byte) (rest : List Byte) :
    packBytes (a :: b :: c :: d :: rest) = leWord [a, b, c, d] :: packBytes rest := rfl

/-- Induction four bytes at a time, as `packBytes` recurses. -/
theorem packBytes_induction {P : List Byte → Prop} (nil : P []) (short : ∀ bs, bs ≠ [] → bs.length < 4 → P bs)
    (four : ∀ a b c d rest, P rest → P (a :: b :: c :: d :: rest)) : ∀ bs, P bs
  | [] => nil
  | [a] => short [a] (by simp) (by simp)
  | [a, b] => short [a, b] (by simp) (by simp)
  | [a, b, c] => short [a, b, c] (by simp) (by simp)
  | a :: b :: c :: d :: rest => four a b c d rest (packBytes_induction nil short four rest)

@[simp] theorem packBytes_length (bs : List Byte) : (packBytes bs).length = wordsFor bs.length := by
  induction bs using packBytes_induction with
  | nil => rfl
  | short bs h0 h =>
    have : 0 < bs.length := List.length_pos_iff.mpr h0
    rw [packBytes_short bs h0 h, wordsFor, List.length_singleton]; omega
  | four a b c d rest ih =>
    rw [packBytes_four, List.length_cons, ih]; simp only [wordsFor, List.length_cons]; omega

/-- The bytes of packed words: the sequence, then zero padding to a whole word (R76, R78). -/
theorem packBytes_wordBytes (bs : List Byte) :
    (packBytes bs).flatMap wordBytes = bs ++ List.replicate (4 * (packBytes bs).length - bs.length) 0 := by
  induction bs using packBytes_induction with
  | nil => rfl
  | short bs h0 h =>
    match bs, h0, h with
    | [_], _, _ => simp [packBytes, wordBytes, byteAt_leWord, List.replicate]
    | [_, _], _, _ => simp [packBytes, wordBytes, byteAt_leWord, List.replicate]
    | [_, _, _], _, _ => simp [packBytes, wordBytes, byteAt_leWord]
  | four a b c d rest ih =>
    rw [packBytes_four, List.flatMap_cons, ih, wordBytes_leWord_four]
    simp only [List.cons_append, List.nil_append, List.length_cons]
    rw [show 4 * ((packBytes rest).length + 1) - (rest.length + 1 + 1 + 1 + 1) =
      4 * (packBytes rest).length - rest.length by omega]

/-- Unpacking what was packed gives the bytes back, whatever words follow. -/
theorem unpackBytes_packBytes (bs : List Byte) (rest : List Word) :
    unpackBytes bs.length (packBytes bs ++ rest) = bs := by
  induction bs using packBytes_induction with
  | nil => simp [unpackBytes, packBytes]
  | short bs h0 h =>
    rw [packBytes_short bs h0 h, unpackBytes]
    simp only [List.cons_append, List.nil_append, List.flatMap_cons]
    rw [List.take_append_of_le_length (by simp; omega), wordBytes_leWord_take bs (by omega)]
  | four a b c d rest' ih =>
    rw [packBytes_four, unpackBytes]
    simp only [List.cons_append, List.flatMap_cons, wordBytes_leWord_four, List.length_cons, List.take_succ_cons,
      List.nil_append]
    rw [← unpackBytes, ih]

theorem flatMap_wordBytes_length (ws : List Word) : (ws.flatMap wordBytes).length = 4 * ws.length := by
  induction ws with
  | nil => rfl
  | cons w ws ih => rw [List.flatMap_cons, List.length_append, ih, wordBytes_length, List.length_cons]; omega

theorem unpackBytes_length (n : Nat) (ws : List Word) : (unpackBytes n ws).length = min n (4 * ws.length) := by
  rw [unpackBytes, List.length_take, flatMap_wordBytes_length]

/-! ### The command word (R71, R79) -/

theorem opcodeNumber_lt (op : Opcode) : opcodeNumber op < 9 := by cases op <;> decide

@[simp] theorem opcodeOf_opcodeNumber (op : Opcode) : opcodeOf (opcodeNumber op) = some op := by cases op <;> rfl

theorem opcodeOf_eq_some {n : Nat} {op : Opcode} (h : opcodeOf n = some op) : n = opcodeNumber op := by
  unfold opcodeOf at h
  split at h <;> simp_all only [Option.some.injEq, reduceCtorEq] <;> subst h <;> rfl

theorem opcodeOf_eq_none {n : Nat} : opcodeOf n = none ↔ n = 0 ∨ 9 ≤ n := by
  unfold opcodeOf
  constructor
  · intro h
    by_contra hn
    have : n = 1 ∨ n = 2 ∨ n = 3 ∨ n = 4 ∨ n = 5 ∨ n = 6 ∨ n = 7 ∨ n = 8 := by omega
    rcases this with rfl | rfl | rfl | rfl | rfl | rfl | rfl | rfl <;> simp at h
  · rintro (rfl | h)
    · rfl
    · split <;> first | omega | rfl

theorem opcField_toNat (w : Word) : opcField w = w.toNat / 2 ^ 24 := by
  have := w.isLt
  simp only [opcField, BitVec.extractLsb'_toNat, Nat.shiftRight_eq_div_pow]; omega

theorem rsvField_toNat (w : Word) : rsvField w = w.toNat / 2 ^ 16 % 256 := by
  simp only [rsvField, BitVec.extractLsb'_toNat, Nat.shiftRight_eq_div_pow]

theorem immField_toNat (w : Word) : immField w = w.toNat % 2 ^ 16 := by
  simp only [immField, BitVec.extractLsb'_toNat, Nat.shiftRight_zero]

theorem commandWord_toNat (op : Opcode) (imm : Nat) (h : imm < 2 ^ 16) :
    (commandWord op imm).toNat = opcodeNumber op * 2 ^ 24 + imm := by
  have ho := opcodeNumber_lt op
  rw [commandWord, rowMatch, BitVec.toNat_or, BitVec.toNat_ofNat, BitVec.toNat_ofNat,
    Nat.mod_eq_of_lt (by omega), Nat.mod_eq_of_lt (by omega), Nat.mul_comm,
    ← Nat.two_pow_add_eq_or_of_lt (by omega)]

@[simp] theorem opcField_commandWord (op : Opcode) (imm : Nat) (h : imm < 2 ^ 16) :
    opcField (commandWord op imm) = opcodeNumber op := by
  rw [opcField_toNat, commandWord_toNat op imm h]; omega

@[simp] theorem rsvField_commandWord (op : Opcode) (imm : Nat) (h : imm < 2 ^ 16) :
    rsvField (commandWord op imm) = 0 := by
  rw [rsvField_toNat, commandWord_toNat op imm h]; omega

@[simp] theorem immField_commandWord (op : Opcode) (imm : Nat) (h : imm < 2 ^ 16) :
    immField (commandWord op imm) = imm := by
  rw [immField_toNat, commandWord_toNat op imm h]; omega

/-- A word with `RSV = 0` is the command word of its opcode and immediate. -/
theorem commandWord_of_fields {w : Word} {op : Opcode} (ho : opcodeOf (opcField w) = some op) (hr : rsvField w = 0) :
    commandWord op (immField w) = w := by
  have h1 := opcodeOf_eq_some ho
  have h2 : immField w < 2 ^ 16 := by rw [immField_toNat]; omega
  apply BitVec.eq_of_toNat_eq
  rw [commandWord_toNat op _ h2, ← h1, opcField_toNat, immField_toNat]
  rw [rsvField_toNat] at hr
  omega

/-! ### Signed operands (R74) -/

theorem ofInt_toInt (w : Word) : BitVec.ofInt 32 w.toInt = w := by simp

theorem toInt_ofInt_of_fits {v : Int} (h : fitsI32 v = true) : (BitVec.ofInt 32 v).toInt = v := by
  simp only [fitsI32, decide_eq_true_eq] at h
  rw [BitVec.toInt_ofInt]
  simp only [Int.bmod]
  omega

theorem fitsI32_toInt (w : Word) : fitsI32 w.toInt = true := by
  have h1 := w.toInt_lt
  have h2 := w.le_toInt
  simp only [fitsI32, decide_eq_true_eq]
  omega

/-! ### The decoder by cases (R80) -/

theorem decode_of_complete {w0 : Word} {ext : List Word} {len : Nat} (hf : frameLength (w0 :: ext) = some len)
    (hl : len ≤ (w0 :: ext).length) : decode (w0 :: ext) = decodeFramed len w0 ext := by
  simp only [decode, hf]; rw [if_neg (by omega)]

theorem decode_of_missing_extension {ws : List Word} (hf : frameLength ws = none) : decode ws = .incomplete := by
  cases ws with
  | nil => rfl
  | cons w0 ext => simp [decode, hf]

theorem decode_of_short {ws : List Word} {len : Nat} (hf : frameLength ws = some len) (hl : ws.length < len) :
    decode ws = .incomplete := by
  cases ws with
  | nil => rfl
  | cons w0 ext => simp only [decode, hf]; rw [if_pos hl]

/-- What is not incomplete is a whole packet of its framed length. -/
theorem decode_complete_cases {ws : List Word} (h : decode ws ≠ .incomplete) :
    ∃ w0 ext len, ws = w0 :: ext ∧ frameLength ws = some len ∧ len ≤ ws.length ∧ decode ws = decodeFramed len w0 ext := by
  cases ws with
  | nil => exact absurd rfl h
  | cons w0 ext =>
    cases hf : frameLength (w0 :: ext) with
    | none => exact absurd (decode_of_missing_extension hf) h
    | some len =>
      by_cases hl : (w0 :: ext).length < len
      · exact absurd (decode_of_short hf hl) h
      · exact ⟨w0, ext, len, rfl, rfl, by omega, decode_of_complete hf (by omega)⟩

/-- A packet that decodes to a command: its opcode, its reserved fields, its length and its operands. -/
theorem decode_command_cases {ws : List Word} {i : Instr} {len : Nat} (h : decode ws = .command i len) :
    ∃ w0 ext op, ws = w0 :: ext ∧ opcodeOf (opcField w0) = some op ∧ rsvField w0 = 0 ∧
      (takesImm op = true ∨ immField w0 = 0) ∧ extWords (formatOf op) ≤ ext.length ∧
      len = 1 + extWords (formatOf op) + payloadWords (formatOf op) (ext.headD 0) ∧ len ≤ ws.length ∧
      i = readOperands op w0 ext := by
  obtain ⟨w0, ext, n, rfl, hf, hl, hd⟩ := decode_complete_cases (by rw [h]; simp)
  rw [hd, decodeFramed] at h
  cases ho : opcodeOf (opcField w0) with
  | none => rw [ho] at h; cases h
  | some op =>
    simp only [ho] at h
    simp only [frameLength, ho] at hf
    split_ifs at h hf with h1 h2 h3
    injection h with h4 h5
    injection hf with hf
    refine ⟨w0, ext, op, rfl, ho, by simpa using h1, ?_, by omega, by omega, by omega, h4.symm⟩
    cases ht : takesImm op <;> simp_all

/-- A packet that is illegal: its framed length, and which of R81–R83 it breaks. -/
theorem decode_illegal_cases {ws : List Word} {why : Illegal} {len : Nat} (h : decode ws = .illegal why len) :
    ∃ w0 ext, ws = w0 :: ext ∧ frameLength ws = some len ∧ len ≤ ws.length ∧
      (opcodeOf (opcField w0) = none ∨ rsvField w0 ≠ 0 ∨
        ∃ op, opcodeOf (opcField w0) = some op ∧ takesImm op = false ∧ immField w0 ≠ 0) := by
  obtain ⟨w0, ext, n, rfl, hf, hl, hd⟩ := decode_complete_cases (by rw [h]; simp)
  rw [hd, decodeFramed] at h
  cases ho : opcodeOf (opcField w0) with
  | none =>
    rw [ho] at h; injection h with h1 h2
    exact ⟨w0, ext, rfl, h2 ▸ hf, h2 ▸ hl, .inl ho⟩
  | some op =>
    simp only [ho] at h
    split_ifs at h with h1 h2
    · injection h with h3 h4
      exact ⟨w0, ext, rfl, h4 ▸ hf, h4 ▸ hl, .inr (.inl h1)⟩
    · injection h with h3 h4
      refine ⟨w0, ext, rfl, h4 ▸ hf, h4 ▸ hl, .inr (.inr ⟨op, ho, ?_⟩)⟩
      simpa using h2

end Sys2Proof
end

