-- ==== Sys2Proof/Laws/State.lean ====
section
/-! SUPPORT. One lemma per field and per shared operation over the state, so that no proof unfolds a record update.
Nothing here is a claim about the hardware. -/

namespace Sys2Proof.Machine

/-! ### `respond` -/

@[simp] theorem respond_lanes (code : ResultCode) (p : List Word) (s : State) : (respond code p s).lanes = s.lanes := rfl
@[simp] theorem respond_csp (code : ResultCode) (p : List Word) (s : State) : (respond code p s).csp = s.csp := rfl
@[simp] theorem respond_outlen (code : ResultCode) (p : List Word) (s : State) : (respond code p s).outlen = s.outlen := rfl
@[simp] theorem respond_rate (code : ResultCode) (p : List Word) (s : State) : (respond code p s).rate = s.rate := rfl
@[simp] theorem respond_rem (code : ResultCode) (p : List Word) (s : State) : (respond code p s).rem = s.rem := rfl
@[simp] theorem respond_remLen (code : ResultCode) (p : List Word) (s : State) : (respond code p s).remLen = s.remLen := rfl
@[simp] theorem respond_fsm (code : ResultCode) (p : List Word) (s : State) : (respond code p s).fsm = s.fsm := rfl
@[simp] theorem respond_lastErr (code : ResultCode) (p : List Word) (s : State) : (respond code p s).lastErr = s.lastErr := rfl
@[simp] theorem respond_halted (code : ResultCode) (p : List Word) (s : State) : (respond code p s).halted = s.halted := rfl
@[simp] theorem respond_digest (code : ResultCode) (p : List Word) (s : State) : (respond code p s).digest = s.digest := rfl
@[simp] theorem respond_input (code : ResultCode) (p : List Word) (s : State) : (respond code p s).input = s.input := rfl
@[simp] theorem respond_output (code : ResultCode) (p : List Word) (s : State) : (respond code p s).output = s.output ++ responseWords code p := rfl
@[simp] theorem respond_resetIn (code : ResultCode) (p : List Word) (s : State) : (respond code p s).resetIn = s.resetIn := rfl
@[simp] theorem respond_respReady (code : ResultCode) (p : List Word) (s : State) : (respond code p s).respReady = s.respReady := rfl

/-! ### `complete` -/

@[simp] theorem complete_lanes (p : List Word) (s : State) : (complete p s).lanes = s.lanes := rfl
@[simp] theorem complete_csp (p : List Word) (s : State) : (complete p s).csp = s.csp := rfl
@[simp] theorem complete_outlen (p : List Word) (s : State) : (complete p s).outlen = s.outlen := rfl
@[simp] theorem complete_rate (p : List Word) (s : State) : (complete p s).rate = s.rate := rfl
@[simp] theorem complete_rem (p : List Word) (s : State) : (complete p s).rem = s.rem := rfl
@[simp] theorem complete_remLen (p : List Word) (s : State) : (complete p s).remLen = s.remLen := rfl
@[simp] theorem complete_fsm (p : List Word) (s : State) : (complete p s).fsm = s.fsm := rfl
@[simp] theorem complete_lastErr (p : List Word) (s : State) : (complete p s).lastErr = .ok := rfl
@[simp] theorem complete_halted (p : List Word) (s : State) : (complete p s).halted = s.halted := rfl
@[simp] theorem complete_digest (p : List Word) (s : State) : (complete p s).digest = s.digest := rfl
@[simp] theorem complete_input (p : List Word) (s : State) : (complete p s).input = s.input := rfl
@[simp] theorem complete_output (p : List Word) (s : State) : (complete p s).output = s.output ++ responseWords .ok p := rfl
@[simp] theorem complete_resetIn (p : List Word) (s : State) : (complete p s).resetIn = s.resetIn := rfl
@[simp] theorem complete_respReady (p : List Word) (s : State) : (complete p s).respReady = s.respReady := rfl

/-! ### `clearObject` -/

@[simp] theorem clearObject_lanes (s : State) : (clearObject s).lanes = zeroLanes := rfl
@[simp] theorem clearObject_csp (s : State) : (clearObject s).csp = s.csp := rfl
@[simp] theorem clearObject_outlen (s : State) : (clearObject s).outlen = s.outlen := rfl
@[simp] theorem clearObject_rate (s : State) : (clearObject s).rate = s.rate := rfl
@[simp] theorem clearObject_rem (s : State) : (clearObject s).rem = zeroBytes s.rate := rfl
@[simp] theorem clearObject_remLen (s : State) : (clearObject s).remLen = 0 := rfl
@[simp] theorem clearObject_fsm (s : State) : (clearObject s).fsm = .fresh := rfl
@[simp] theorem clearObject_lastErr (s : State) : (clearObject s).lastErr = s.lastErr := rfl
@[simp] theorem clearObject_halted (s : State) : (clearObject s).halted = s.halted := rfl
@[simp] theorem clearObject_digest (s : State) : (clearObject s).digest = none := rfl
@[simp] theorem clearObject_input (s : State) : (clearObject s).input = s.input := rfl
@[simp] theorem clearObject_output (s : State) : (clearObject s).output = s.output := rfl
@[simp] theorem clearObject_resetIn (s : State) : (clearObject s).resetIn = s.resetIn := rfl
@[simp] theorem clearObject_respReady (s : State) : (clearObject s).respReady = s.respReady := rfl

/-! ### `configure` -/

@[simp] theorem configure_lanes (n : Nat) (s : State) : (configure n s).lanes = s.lanes := rfl
@[simp] theorem configure_csp (n : Nat) (s : State) : (configure n s).csp = s.csp := rfl
@[simp] theorem configure_outlen (n : Nat) (s : State) : (configure n s).outlen = n := rfl
@[simp] theorem configure_rate (n : Nat) (s : State) : (configure n s).rate = (rateOf n).toNat := rfl
@[simp] theorem configure_rem (n : Nat) (s : State) : (configure n s).rem = s.rem := rfl
@[simp] theorem configure_remLen (n : Nat) (s : State) : (configure n s).remLen = s.remLen := rfl
@[simp] theorem configure_fsm (n : Nat) (s : State) : (configure n s).fsm = s.fsm := rfl
@[simp] theorem configure_lastErr (n : Nat) (s : State) : (configure n s).lastErr = s.lastErr := rfl
@[simp] theorem configure_halted (n : Nat) (s : State) : (configure n s).halted = s.halted := rfl
@[simp] theorem configure_digest (n : Nat) (s : State) : (configure n s).digest = s.digest := rfl
@[simp] theorem configure_input (n : Nat) (s : State) : (configure n s).input = s.input := rfl
@[simp] theorem configure_output (n : Nat) (s : State) : (configure n s).output = s.output := rfl
@[simp] theorem configure_resetIn (n : Nat) (s : State) : (configure n s).resetIn = s.resetIn := rfl
@[simp] theorem configure_respReady (n : Nat) (s : State) : (configure n s).respReady = s.respReady := rfl

/-! ### `advance` -/

@[simp] theorem advance_lanes (len : Nat) (s : State) : (advance len s).lanes = s.lanes := rfl
@[simp] theorem advance_csp (len : Nat) (s : State) : (advance len s).csp = s.csp + len := rfl
@[simp] theorem advance_outlen (len : Nat) (s : State) : (advance len s).outlen = s.outlen := rfl
@[simp] theorem advance_rate (len : Nat) (s : State) : (advance len s).rate = s.rate := rfl
@[simp] theorem advance_rem (len : Nat) (s : State) : (advance len s).rem = s.rem := rfl
@[simp] theorem advance_remLen (len : Nat) (s : State) : (advance len s).remLen = s.remLen := rfl
@[simp] theorem advance_fsm (len : Nat) (s : State) : (advance len s).fsm = s.fsm := rfl
@[simp] theorem advance_lastErr (len : Nat) (s : State) : (advance len s).lastErr = s.lastErr := rfl
@[simp] theorem advance_halted (len : Nat) (s : State) : (advance len s).halted = s.halted := rfl
@[simp] theorem advance_digest (len : Nat) (s : State) : (advance len s).digest = s.digest := rfl
@[simp] theorem advance_input (len : Nat) (s : State) : (advance len s).input = s.input.drop len := rfl
@[simp] theorem advance_output (len : Nat) (s : State) : (advance len s).output = s.output := rfl
@[simp] theorem advance_resetIn (len : Nat) (s : State) : (advance len s).resetIn = s.resetIn := rfl
@[simp] theorem advance_respReady (len : Nat) (s : State) : (advance len s).respReady = s.respReady := rfl

/-! ### `hardwareReset` -/

@[simp] theorem hardwareReset_lanes (s : State) : (hardwareReset s).lanes = zeroLanes := rfl
@[simp] theorem hardwareReset_csp (s : State) : (hardwareReset s).csp = 0 := rfl
@[simp] theorem hardwareReset_outlen (s : State) : (hardwareReset s).outlen = 32 := rfl
@[simp] theorem hardwareReset_rate (s : State) : (hardwareReset s).rate = 136 := rfl
@[simp] theorem hardwareReset_rem (s : State) : (hardwareReset s).rem = zeroBytes 136 := rfl
@[simp] theorem hardwareReset_remLen (s : State) : (hardwareReset s).remLen = 0 := rfl
@[simp] theorem hardwareReset_fsm (s : State) : (hardwareReset s).fsm = .fresh := rfl
@[simp] theorem hardwareReset_lastErr (s : State) : (hardwareReset s).lastErr = .ok := rfl
@[simp] theorem hardwareReset_halted (s : State) : (hardwareReset s).halted = false := rfl
@[simp] theorem hardwareReset_digest (s : State) : (hardwareReset s).digest = none := rfl
@[simp] theorem hardwareReset_input (s : State) : (hardwareReset s).input = [] := rfl
@[simp] theorem hardwareReset_output (s : State) : (hardwareReset s).output = [] := rfl
@[simp] theorem hardwareReset_resetIn (s : State) : (hardwareReset s).resetIn = false := rfl
@[simp] theorem hardwareReset_respReady (s : State) : (hardwareReset s).respReady = s.respReady := rfl

/-! ### `hostSend` -/

@[simp] theorem hostSend_lanes (ws : List Word) (s : State) : (hostSend ws s).lanes = s.lanes := rfl
@[simp] theorem hostSend_csp (ws : List Word) (s : State) : (hostSend ws s).csp = s.csp := rfl
@[simp] theorem hostSend_outlen (ws : List Word) (s : State) : (hostSend ws s).outlen = s.outlen := rfl
@[simp] theorem hostSend_rate (ws : List Word) (s : State) : (hostSend ws s).rate = s.rate := rfl
@[simp] theorem hostSend_rem (ws : List Word) (s : State) : (hostSend ws s).rem = s.rem := rfl
@[simp] theorem hostSend_remLen (ws : List Word) (s : State) : (hostSend ws s).remLen = s.remLen := rfl
@[simp] theorem hostSend_fsm (ws : List Word) (s : State) : (hostSend ws s).fsm = s.fsm := rfl
@[simp] theorem hostSend_lastErr (ws : List Word) (s : State) : (hostSend ws s).lastErr = s.lastErr := rfl
@[simp] theorem hostSend_halted (ws : List Word) (s : State) : (hostSend ws s).halted = s.halted := rfl
@[simp] theorem hostSend_digest (ws : List Word) (s : State) : (hostSend ws s).digest = s.digest := rfl
@[simp] theorem hostSend_input (ws : List Word) (s : State) : (hostSend ws s).input = s.input ++ ws := rfl
@[simp] theorem hostSend_output (ws : List Word) (s : State) : (hostSend ws s).output = s.output := rfl
@[simp] theorem hostSend_resetIn (ws : List Word) (s : State) : (hostSend ws s).resetIn = s.resetIn := rfl
@[simp] theorem hostSend_respReady (ws : List Word) (s : State) : (hostSend ws s).respReady = s.respReady := rfl

/-! ### `placePacket` -/

@[simp] theorem placePacket_lanes (ws : List Word) (s : State) : (placePacket ws s).lanes = s.lanes := rfl
@[simp] theorem placePacket_csp (ws : List Word) (s : State) : (placePacket ws s).csp = s.csp := rfl
@[simp] theorem placePacket_outlen (ws : List Word) (s : State) : (placePacket ws s).outlen = s.outlen := rfl
@[simp] theorem placePacket_rate (ws : List Word) (s : State) : (placePacket ws s).rate = s.rate := rfl
@[simp] theorem placePacket_rem (ws : List Word) (s : State) : (placePacket ws s).rem = s.rem := rfl
@[simp] theorem placePacket_remLen (ws : List Word) (s : State) : (placePacket ws s).remLen = s.remLen := rfl
@[simp] theorem placePacket_fsm (ws : List Word) (s : State) : (placePacket ws s).fsm = s.fsm := rfl
@[simp] theorem placePacket_lastErr (ws : List Word) (s : State) : (placePacket ws s).lastErr = s.lastErr := rfl
@[simp] theorem placePacket_halted (ws : List Word) (s : State) : (placePacket ws s).halted = s.halted := rfl
@[simp] theorem placePacket_digest (ws : List Word) (s : State) : (placePacket ws s).digest = s.digest := rfl
@[simp] theorem placePacket_input (ws : List Word) (s : State) : (placePacket ws s).input = ws ++ s.input.drop ws.length := rfl
@[simp] theorem placePacket_output (ws : List Word) (s : State) : (placePacket ws s).output = s.output := rfl
@[simp] theorem placePacket_resetIn (ws : List Word) (s : State) : (placePacket ws s).resetIn = false := rfl
@[simp] theorem placePacket_respReady (ws : List Word) (s : State) : (placePacket ws s).respReady = true := rfl

/-! ### `raise`: only `LAST_ERR`, `HALTED` and the response stream -/

@[simp] theorem raise_lanes (e : ResultCode) (s : State) : (raise e s).lanes = s.lanes := by cases e <;> rfl
@[simp] theorem raise_csp (e : ResultCode) (s : State) : (raise e s).csp = s.csp := by cases e <;> rfl
@[simp] theorem raise_outlen (e : ResultCode) (s : State) : (raise e s).outlen = s.outlen := by cases e <;> rfl
@[simp] theorem raise_rate (e : ResultCode) (s : State) : (raise e s).rate = s.rate := by cases e <;> rfl
@[simp] theorem raise_rem (e : ResultCode) (s : State) : (raise e s).rem = s.rem := by cases e <;> rfl
@[simp] theorem raise_remLen (e : ResultCode) (s : State) : (raise e s).remLen = s.remLen := by cases e <;> rfl
@[simp] theorem raise_fsm (e : ResultCode) (s : State) : (raise e s).fsm = s.fsm := by cases e <;> rfl
@[simp] theorem raise_digest (e : ResultCode) (s : State) : (raise e s).digest = s.digest := by cases e <;> rfl
@[simp] theorem raise_input (e : ResultCode) (s : State) : (raise e s).input = s.input := by cases e <;> rfl
@[simp] theorem raise_resetIn (e : ResultCode) (s : State) : (raise e s).resetIn = s.resetIn := by cases e <;> rfl
@[simp] theorem raise_respReady (e : ResultCode) (s : State) : (raise e s).respReady = s.respReady := by cases e <;> rfl
@[simp] theorem raise_output (e : ResultCode) (s : State) : (raise e s).output = s.output ++ responseWords e [] := by
  cases e <;> rfl
theorem raise_lastErr (e : ResultCode) (s : State) :
    (raise e s).lastErr = if e = .halted then s.lastErr else e := by cases e <;> rfl
theorem raise_halted (e : ResultCode) (s : State) :
    (raise e s).halted = if e = .internalInvariantViolation then true else s.halted := by cases e <;> rfl

end Sys2Proof.Machine
end

