-- ==== Sys2Proof/Laws/Ops.lean ====
section
/-! SUPPORT. What the shared operations and one command can do, said once: the halt gate, the checks, `exec` and `step`
by cases. Proofs cite these instead of unfolding the operations. -/

namespace Sys2Proof.Machine

variable {s t : State} {i : Instr}

theorem unlessHalted_running (b : State → State) (h : s.halted = false) : unlessHalted b s = b s := by
  simp [unlessHalted, h]

theorem unlessHalted_halted (b : State → State) (h : s.halted = true) : unlessHalted b s = raise .halted s := by
  simp [unlessHalted, h]

@[simp] theorem checked_none (b : State → State) (s : State) : checked none b s = b s := rfl

@[simp] theorem checked_some (e : ResultCode) (b : State → State) (s : State) : checked (some e) b s = raise e s := rfl

/-- No command of the block ends in a fault or a refusal (R209). -/
theorem exec_answers_next (i : Instr) (s : State) : ∃ t, exec i s = .next t := by cases i <;> exact ⟨_, rfl⟩

/-! ### A command of a running block, past the halt gate (R80) -/

theorem exec_kinit_running (n : Nat) (h : s.halted = false) : exec (.kinit n) s =
    .next (checked (kinitError n) (fun s => complete [] (clearObject (configure n s))) s) :=
  congrArg _ (unlessHalted_running _ h)

theorem exec_kreset_running (h : s.halted = false) : exec .kreset s = .next (complete [] (clearObject s)) :=
  congrArg _ (unlessHalted_running _ h)

theorem exec_kupdate_running (data : List Byte) (off len : Int) (h : s.halted = false) : exec (.kupdate data off len) s =
    .next (checked (windowError data.length off len) (fun s =>
      if len = 0 then complete [] s else complete [] (absorbUpdate (payloadWindow data off len) s)) s) :=
  congrArg _ (unlessHalted_running _ h)

theorem exec_kdigest_running (h : s.halted = false) : exec .kdigest s =
    .next (complete (packBytes (digestBytes (finalizeDigest s))) (finalizeDigest s)) :=
  congrArg _ (unlessHalted_running _ h)

theorem exec_khash_running (n : Nat) (msg : List Byte) (h : s.halted = false) : exec (.khash n msg) s =
    .next (checked (khashError n) (complete (packBytes (oneShotHash msg n))) s) :=
  congrArg _ (unlessHalted_running _ h)

theorem exec_kpermute_running (h : s.halted = false) : exec .kpermute s =
    .next (complete [] { s with lanes := keccakF s.lanes, fsm := .accumulating, digest := none }) :=
  congrArg _ (unlessHalted_running _ h)

theorem exec_krdlane_running (k : Nat) (h : s.halted = false) : exec (.krdlane k) s =
    .next (checked (laneIndexError k) (fun s => complete (laneWords (laneAt s.lanes k)) s) s) :=
  congrArg _ (unlessHalted_running _ h)

/-! ### `exec` by cases -/

/-- What a command does when the block is running and its own checks pass: the state `u` it leaves before it responds,
and its response payload `p`. -/
inductive Effect : Instr → State → State → List Word → Prop where
  | kinit {n : Nat} {s : State} (h : kinitError n = none) : Effect (.kinit n) s (clearObject (configure n s)) []
  | kreset {s : State} : Effect .kreset s (clearObject s) []
  | kupdateEmpty {data : List Byte} {off : Int} {s : State} (h : windowError data.length off 0 = none) : Effect (.kupdate data off 0) s s []
  | kupdate {data : List Byte} {off len : Int} {s : State} (h : windowError data.length off len = none) (hl : len ≠ 0) :
      Effect (.kupdate data off len) s (absorbUpdate (payloadWindow data off len) s) []
  | kdigest {s : State} : Effect .kdigest s (finalizeDigest s) (packBytes (digestBytes (finalizeDigest s)))
  | khash {n : Nat} {msg : List Byte} {s : State} (h : khashError n = none) : Effect (.khash n msg) s s (packBytes (oneShotHash msg n))
  | kpermute {s : State} : Effect .kpermute s { s with lanes := keccakF s.lanes, fsm := .accumulating, digest := none } []
  | krdlane {k : Nat} {s : State} (h : laneIndexError k = none) : Effect (.krdlane k) s s (laneWords (laneAt s.lanes k))

/-- The errors of KUPDATE, KINIT and KHASH as conditions on their operands (R161, R163, R192). -/
theorem windowError_eq_none {dlen : Nat} {off len : Int} :
    windowError dlen off len = none ↔ 0 ≤ len ∧ 0 ≤ off ∧ off + len ≤ dlen := by
  unfold windowError; split_ifs <;> simp <;> omega

theorem kinitError_eq_none {n : Nat} : kinitError n = none ↔ ValidOutlen n := by
  unfold kinitError ValidOutlen rateOf
  simp only [Config.outlenMax, Config.fullStateRate, Config.stateBytes]
  by_cases h : n = 200
  · subst h; simp
  · simp only [h, if_false]; split_ifs <;> simp <;> omega

theorem khashError_eq_none {n : Nat} : khashError n = none ↔ OneShotOutlen n := by
  unfold khashError OneShotOutlen rateOf
  simp only [Config.outlenMax, Config.fullStateRate, Config.stateBytes, Config.oneShotPadBytes]
  by_cases h : n = 200
  · subst h; simp
  · simp only [h, if_false]; split_ifs <;> simp <;> omega

/-- A valid rate is positive, at most 198, and equal to its `Nat` (R24, R130). -/
theorem rateOf_valid {n : Nat} (h : ValidOutlen n) :
    ((rateOf n).toNat : Int) = rateOf n ∧ 0 < (rateOf n).toNat ∧ (rateOf n).toNat ≤ 198 := by
  unfold ValidOutlen at h
  unfold rateOf
  simp only [Config.outlenMax, Config.fullStateRate, Config.stateBytes]
  split_ifs <;> omega

/-- The error that a running block raises for a command's own checks. -/
def commandError : Instr → Option ResultCode
  | .kinit n => kinitError n
  | .kupdate data off len => windowError data.length off len
  | .khash n _ => khashError n
  | .krdlane k => laneIndexError k
  | .kreset | .kdigest | .kpermute | .kstatus => none

theorem commandError_cases {e : ResultCode} (h : commandError i = some e) :
    e = .invalidArgument ∨ e = .outOfRange ∨ e = .internalInvariantViolation := by
  cases i <;> simp only [commandError, kinitError, windowError, khashError, laneIndexError, reduceCtorEq] at h <;>
    split_ifs at h <;> simp_all

/-- Every command by cases: the halt gate, KSTATUS, an error of its own checks, or its effect and an `OK`. -/
theorem exec_cases (h : exec i s = .next t) :
    (s.halted = true ∧ i ≠ .kstatus ∧ t = raise .halted s) ∨
    (i = .kstatus ∧ t = respond .ok [statusWord s] s) ∨
    (s.halted = false ∧ i ≠ .kstatus ∧ ∃ e, commandError i = some e ∧ t = raise e s) ∨
    (s.halted = false ∧ i ≠ .kstatus ∧ commandError i = none ∧ ∃ u p, Effect i s u p ∧ t = complete p u) := by
  have key : ∀ (err : Option ResultCode) (body : State → State), commandError i = err → i ≠ .kstatus →
      t = unlessHalted (checked err body) s →
      (err = none → ∃ u p, Effect i s u p ∧ body s = complete p u) →
      (s.halted = true ∧ i ≠ .kstatus ∧ t = raise .halted s) ∨
      (i = .kstatus ∧ t = respond .ok [statusWord s] s) ∨
      (s.halted = false ∧ i ≠ .kstatus ∧ ∃ e, commandError i = some e ∧ t = raise e s) ∨
      (s.halted = false ∧ i ≠ .kstatus ∧ commandError i = none ∧ ∃ u p, Effect i s u p ∧ t = complete p u) := by
    intro err body herr hne ht hb
    cases hh : s.halted with
    | true => exact .inl ⟨rfl, hne, by rw [ht, unlessHalted_halted _ hh]⟩
    | false =>
      rw [unlessHalted_running _ hh] at ht
      cases err with
      | some e => exact .inr (.inr (.inl ⟨rfl, hne, e, herr, ht⟩))
      | none =>
        obtain ⟨u, p, hu, hbody⟩ := hb rfl
        exact .inr (.inr (.inr ⟨rfl, hne, herr, u, p, hu, by rw [ht]; exact hbody⟩))
  cases i with
  | kinit n =>
    injection h with h
    exact key (kinitError n) _ rfl nofun h.symm fun he => ⟨_, _, .kinit he, rfl⟩
  | kreset =>
    injection h with h
    exact key none _ rfl nofun h.symm fun _ => ⟨_, _, .kreset, rfl⟩
  | kupdate data off len =>
    injection h with h
    refine key (windowError data.length off len) _ rfl nofun h.symm fun he => ?_
    by_cases hl : len = 0
    · subst hl; exact ⟨_, _, .kupdateEmpty he, by simp⟩
    · exact ⟨_, _, .kupdate he hl, by simp [hl]⟩
  | kdigest =>
    injection h with h
    exact key none _ rfl nofun h.symm fun _ => ⟨_, _, .kdigest, rfl⟩
  | khash n msg =>
    injection h with h
    exact key (khashError n) _ rfl nofun h.symm fun he => ⟨_, _, .khash he, rfl⟩
  | kpermute =>
    injection h with h
    exact key none _ rfl nofun h.symm fun _ => ⟨_, _, .kpermute, rfl⟩
  | krdlane k =>
    injection h with h
    exact key (laneIndexError k) _ rfl nofun h.symm fun he => ⟨_, _, .krdlane he, rfl⟩
  | kstatus =>
    injection h with h
    exact .inr (.inl ⟨rfl, h.symm⟩)

/-! ### The stream and the signals are out of `exec`'s reach -/

theorem topUp_ports (d : List Byte) (s : State) :
    SamePorts s (topUp d s).1 ∧ (topUp d s).1.outlen = s.outlen ∧ (topUp d s).1.rate = s.rate ∧
      (topUp d s).1.halted = s.halted ∧ (topUp d s).1.lastErr = s.lastErr ∧ (topUp d s).1.output = s.output := by
  unfold topUp; split
  · dsimp only; split <;> simp [SamePorts]
  · simp [SamePorts]

theorem keepTail_ports (d : List Byte) (s : State) :
    SamePorts s (keepTail d s) ∧ (keepTail d s).outlen = s.outlen ∧ (keepTail d s).rate = s.rate ∧
      (keepTail d s).halted = s.halted ∧ (keepTail d s).lastErr = s.lastErr ∧ (keepTail d s).output = s.output := by
  unfold keepTail; split <;> simp [SamePorts]

/-- `absorbUpdate` changes lanes, remainder, `FSM` and cache only. -/
theorem absorbUpdate_frame (d : List Byte) (s : State) :
    SamePorts s (absorbUpdate d s) ∧ (absorbUpdate d s).outlen = s.outlen ∧ (absorbUpdate d s).rate = s.rate ∧
      (absorbUpdate d s).halted = s.halted ∧ (absorbUpdate d s).lastErr = s.lastErr ∧
      (absorbUpdate d s).output = s.output := by
  obtain ⟨⟨a1, a2, a3, a4⟩, a5, a6, a7, a8, a9⟩ := topUp_ports d s
  obtain ⟨⟨b1, b2, b3, b4⟩, b5, b6, b7, b8, b9⟩ :=
    keepTail_ports (directBlocks (topUp d s).2 (topUp d s).1).2 (directBlocks (topUp d s).2 (topUp d s).1).1
  simp only [SamePorts, absorbUpdate, b1, b2, b3, b4, b5, b6, b7, b8, b9]
  exact ⟨⟨a1, a2, a3, a4⟩, a5, a6, a7, a8, a9⟩

theorem finalizeDigest_frame (s : State) :
    SamePorts s (finalizeDigest s) ∧ (finalizeDigest s).outlen = s.outlen ∧ (finalizeDigest s).rate = s.rate ∧
      (finalizeDigest s).lanes = s.lanes ∧ (finalizeDigest s).rem = s.rem ∧ (finalizeDigest s).remLen = s.remLen ∧
      (finalizeDigest s).halted = s.halted ∧ (finalizeDigest s).lastErr = s.lastErr ∧
      (finalizeDigest s).output = s.output := by
  unfold finalizeDigest; split <;> simp [SamePorts]

/-- An effect leaves the ports, `HALTED`, `LAST_ERR` and the response stream alone. -/
theorem Effect.frame {u : State} {p : List Word} (h : Effect i s u p) :
    SamePorts s u ∧ u.halted = s.halted ∧ u.lastErr = s.lastErr ∧ u.output = s.output := by
  cases h with
  | @kupdate data off len =>
    have := absorbUpdate_frame (payloadWindow data off len) s
    exact ⟨this.1, this.2.2.2.1, this.2.2.2.2.1, this.2.2.2.2.2⟩
  | kdigest =>
    have := finalizeDigest_frame s
    exact ⟨this.1, this.2.2.2.2.2.2.1, this.2.2.2.2.2.2.2.1, this.2.2.2.2.2.2.2.2⟩
  | _ => simp [SamePorts]

/-- `exec` never touches the command stream or the signals. -/
theorem exec_ports (h : exec i s = .next t) : SamePorts s t := by
  obtain ⟨_, _, rfl⟩ | ⟨_, rfl⟩ | ⟨_, _, e, _, rfl⟩ | ⟨_, _, _, u, p, hu, rfl⟩ := exec_cases h
  · simp [SamePorts]
  · simp [SamePorts]
  · simp [SamePorts]
  · exact hu.frame.1

/-! ### `step` by cases -/

/-- A step that answers a next state is hardware reset, the answer to an illegal packet, or a command. -/
theorem step_cases (h : step s = .next t) :
    (s.resetIn = true ∧ t = hardwareReset s) ∨
    (s.resetIn = false ∧ s.respReady = true ∧ ∃ why len, decode s.input = .illegal why len ∧
      t = advance len (illegalCommand s)) ∨
    (s.resetIn = false ∧ s.respReady = true ∧ ∃ i len u, decode s.input = .command i len ∧ exec i s = .next u ∧
      t = advance len u) := by
  unfold step stepProcessor at h
  split at h
  · injection h with h; exact .inl ⟨‹_›, h.symm⟩
  · have hr : s.resetIn = false := Bool.eq_false_of_not_eq_true ‹_›
    unfold runPacket fetch at h
    cases hd : decode s.input with
    | incomplete => rw [hd] at h; cases h
    | illegal why len =>
      rw [hd] at h
      simp only [answer] at h
      split at h
      · injection h with h; exact .inr (.inl ⟨hr, ‹_›, why, len, rfl, h.symm⟩)
      · cases h
    | command i len =>
      rw [hd] at h
      simp only [answer] at h
      split at h
      · obtain ⟨u, hu⟩ := exec_answers_next i s
        rw [hu] at h; injection h with h
        exact .inr (.inr ⟨hr, ‹_›, i, len, u, rfl, hu, h.symm⟩)
      · cases h

/-- The step of a running processor whose packet is a command: `exec`, and then past the packet. -/
theorem step_command {len : Nat} (h1 : s.resetIn = false) (h2 : s.respReady = true)
    (h3 : decode s.input = .command i len) (h4 : exec i s = .next t) : step s = .next (advance len t) := by
  simp [step, stepProcessor, h1, runPacket, fetch, h3, answer, h2, h4, finish]

/-- The state after an illegal packet. -/
theorem step_illegal {why : Illegal} {len : Nat} (h1 : s.resetIn = false) (hd : decode s.input = .illegal why len)
    (h : step s = .next t) : t = advance len (illegalCommand s) := by
  obtain ⟨h, _⟩ | ⟨_, _, _, _, hd', rfl⟩ | ⟨_, _, _, _, _, hd', _, rfl⟩ := step_cases h
  · simp_all
  · rw [hd] at hd'; injection hd' with _ b; rw [b]
  · rw [hd] at hd'; cases hd'

end Sys2Proof.Machine
end

