-- ==== Sys2Proof/Laws/PerInstr.lean ====
section
/-! SUPPORT. Statements about every command as syntax, one lemma per constructor of `Instr`. -/

namespace Sys2Proof.Laws

/-- The encoding of a command has as many words as R75 gives its packet. -/
def EncodeLength.Statement (i : Instr) : Prop := (encode i).length = packetLength i

theorem EncodeLength.kinit (n : Nat) : EncodeLength.Statement (.kinit n) := rfl

theorem EncodeLength.kreset : EncodeLength.Statement .kreset := rfl

theorem EncodeLength.kupdate (data : List Byte) (off len : Int) : EncodeLength.Statement (.kupdate data off len) := by
  simp [Statement, encode, packetLength]; omega

theorem EncodeLength.kdigest : EncodeLength.Statement .kdigest := rfl

theorem EncodeLength.khash (n : Nat) (msg : List Byte) : EncodeLength.Statement (.khash n msg) := by
  simp [Statement, encode, packetLength]; omega

theorem EncodeLength.kpermute : EncodeLength.Statement .kpermute := rfl

theorem EncodeLength.krdlane (i : Nat) : EncodeLength.Statement (.krdlane i) := rfl

theorem EncodeLength.kstatus : EncodeLength.Statement .kstatus := rfl

end Sys2Proof.Laws
end

