-- ==== Sys2Proof/Laws/Permutation.lean ====
section
/-! SUPPORT. Reading lanes: the small lemmas of `laneXY`, `laneAt`, `tabulate` and `laneIndex`. -/

namespace Sys2Proof.Machine

/-- The column of a flat index. -/
def columnOf (i : Fin 25) : Fin 5 := ⟨i.val % 5, by omega⟩

/-- The row of a flat index. -/
def rowOf (i : Fin 25) : Fin 5 := ⟨i.val / 5, by omega⟩

@[simp] theorem laneIndex_column_row (i : Fin 25) : laneIndex (columnOf i) (rowOf i) = i := by
  apply Fin.ext; simp only [laneIndex, columnOf, rowOf]; omega

@[simp] theorem columnOf_laneIndex (x y : Fin 5) : columnOf (laneIndex x y) = x := by
  apply Fin.ext; simp only [laneIndex, columnOf]; omega

@[simp] theorem rowOf_laneIndex (x y : Fin 5) : rowOf (laneIndex x y) = y := by
  apply Fin.ext; simp only [laneIndex, rowOf]; omega

theorem laneIndex_injective {x y x' y' : Fin 5} (h : laneIndex x y = laneIndex x' y') : x = x' ∧ y = y' :=
  ⟨by rw [← columnOf_laneIndex x y, h, columnOf_laneIndex], by rw [← rowOf_laneIndex x y, h, rowOf_laneIndex]⟩

theorem getElem_eq_laneXY (A : Lanes) (i : Fin 25) : A[i] = laneXY A (columnOf i) (rowOf i) := by
  simp [laneXY]

/-- Two arrays with the same 25 lanes are equal. -/
theorem lanes_ext {A B : Lanes} (h : ∀ x y, laneXY A x y = laneXY B x y) : A = B := by
  apply Vector.ext
  intro i hi
  have := h (columnOf ⟨i, hi⟩) (rowOf ⟨i, hi⟩)
  simpa [laneXY] using this

@[simp] theorem laneXY_tabulate (f : Fin 5 → Fin 5 → Lane) (x y : Fin 5) : laneXY (tabulate f) x y = f x y := by
  fin_cases x <;> fin_cases y <;> rfl

theorem laneAt_eq (A : Lanes) (i : Nat) (h : i < 25) : laneAt A i = A[i] := by simp [laneAt, h]

theorem laneAt_laneIndex (A : Lanes) (x y : Fin 5) : laneAt A (5 * y.val + x.val) = laneXY A x y := by
  rw [laneAt_eq A _ (by omega)]; rfl

@[simp] theorem laneXY_zeroLanes (x y : Fin 5) : laneXY zeroLanes x y = 0 := by
  simp [laneXY, zeroLanes]

/-- `KeccakF` after its first `n` rounds is one more round (R108). -/
theorem keccakF_eq_foldl (A : Lanes) : keccakF A = (List.finRange 24).foldl permRound A := rfl

end Sys2Proof.Machine
end

