-- ==== Sys2Proof/Laws/Sponge.lean ====
section
/-! SUPPORT. Byte buffers, the splitting of a byte sequence into blocks, and what an update of the object does, said in
one equation. -/

namespace Sys2Proof.Machine

/-! ### Buffers -/

@[simp] theorem zeroBytes_length (n : Nat) : (zeroBytes n).length = n := by simp [zeroBytes]

theorem writeBytes_length (buf : List Byte) (pos : Nat) (bs : List Byte) (h : pos + bs.length ≤ buf.length) :
    (writeBytes buf pos bs).length = buf.length := by
  simp only [writeBytes, List.length_append, List.length_take, List.length_drop]; omega

@[simp] theorem padInto_length (P rem : List Byte) (rate : Nat) (h : rem.length ≤ P.length) :
    (padInto P rem rate).length = P.length := by
  simp [padInto, writeBytes_length P 0 rem (by omega)]

/-! ### Blocks -/

theorem takeBlocks_zero (rate : Nat) (d : List Byte) : takeBlocks 0 rate d = ([], d) := rfl

theorem takeBlocks_succ (fuel rate : Nat) (d : List Byte) :
    takeBlocks (fuel + 1) rate d =
      if rate ≤ d.length then
        (d.take rate :: (takeBlocks fuel rate (d.drop rate)).1, (takeBlocks fuel rate (d.drop rate)).2)
      else ([], d) := rfl

/-- The loop absorbs exactly the full blocks: what it took and what it left, and that enough fuel was given. -/
theorem takeBlocks_spec {rate : Nat} (hr : 0 < rate) : ∀ (fuel : Nat) (d : List Byte), d.length ≤ fuel →
    (takeBlocks fuel rate d).1.flatten ++ (takeBlocks fuel rate d).2 = d ∧
    (∀ b ∈ (takeBlocks fuel rate d).1, b.length = rate) ∧ (takeBlocks fuel rate d).2.length < rate
  | 0, d, h => by
    have hd : d = [] := List.eq_nil_of_length_eq_zero (by omega)
    subst hd; simpa [takeBlocks_zero] using hr
  | fuel + 1, d, h => by
    rw [takeBlocks_succ]
    split
    · obtain ⟨h1, h2, h3⟩ := takeBlocks_spec hr fuel (d.drop rate) (by rw [List.length_drop]; omega)
      refine ⟨?_, ?_, h3⟩
      · simp only [List.flatten_cons, List.append_assoc, h1, List.take_append_drop]
      · intro b hb
        rcases List.mem_cons.mp hb with rfl | hb
        · rw [List.length_take]; omega
        · exact h2 b hb
    · exact ⟨by simp, by simp, by dsimp only; omega⟩

theorem splitBlocks_spec {rate : Nat} (hr : 0 < rate) (d : List Byte) :
    (splitBlocks rate d).1.flatten ++ (splitBlocks rate d).2 = d ∧
    (∀ b ∈ (splitBlocks rate d).1, b.length = rate) ∧ (splitBlocks rate d).2.length < rate :=
  takeBlocks_spec hr d.length d (Nat.le_refl _)

theorem flatten_length_of_blocks {rate : Nat} : ∀ {blocks : List (List Byte)}, (∀ b ∈ blocks, b.length = rate) →
    blocks.flatten.length = rate * blocks.length
  | [], _ => by simp
  | b :: bs, h => by
    rw [List.flatten_cons, List.length_append, h b (by simp),
      flatten_length_of_blocks fun c hc => h c (List.mem_cons_of_mem _ hc), List.length_cons, Nat.mul_add, Nat.mul_one,
      Nat.add_comm]

/-- A splitting into rate-sized blocks and a shorter tail is unique. -/
theorem blocks_unique {rate : Nat} : ∀ {a b : List (List Byte)} {s t : List Byte},
    (∀ x ∈ a, x.length = rate) → (∀ x ∈ b, x.length = rate) → s.length < rate → t.length < rate →
    a.flatten ++ s = b.flatten ++ t → a = b ∧ s = t
  | [], [], s, t, _, _, _, _, h => ⟨rfl, by simpa using h⟩
  | [], y :: b, s, t, _, hb, hs, _, h => by
    have := congrArg List.length h
    simp only [List.flatten_nil, List.nil_append, List.flatten_cons, List.length_append, hb y (by simp)] at this
    omega
  | x :: a, [], s, t, ha, _, _, ht, h => by
    have := congrArg List.length h
    simp only [List.flatten_nil, List.nil_append, List.flatten_cons, List.length_append, ha x (by simp)] at this
    omega
  | x :: a, y :: b, s, t, ha, hb, hs, ht, h => by
    simp only [List.flatten_cons, List.append_assoc] at h
    obtain ⟨h1, h2⟩ := List.append_inj h (by rw [ha x (by simp), hb y (by simp)])
    obtain ⟨h3, h4⟩ := blocks_unique (fun z hz => ha z (List.mem_cons_of_mem _ hz))
      (fun z hz => hb z (List.mem_cons_of_mem _ hz)) hs ht h2
    exact ⟨by rw [h1, h3], h4⟩

theorem splitBlocks_eq {rate : Nat} {d : List Byte} {blocks : List (List Byte)} {tail : List Byte}
    (hb : ∀ b ∈ blocks, b.length = rate) (ht : tail.length < rate) (h : d = blocks.flatten ++ tail) :
    splitBlocks rate d = (blocks, tail) := by
  obtain ⟨h1, h2, h3⟩ := splitBlocks_spec (rate := rate) (by omega) d
  obtain ⟨h4, h5⟩ := blocks_unique h2 hb h3 ht (h1.trans h)
  exact Prod.ext h4 h5

theorem splitBlocks_short {rate : Nat} {d : List Byte} (h : d.length < rate) : splitBlocks rate d = ([], d) :=
  splitBlocks_eq (by simp) h (by simp)

/-- Splitting a longer stream: the blocks so far, then those of the tail and the new bytes. -/
theorem splitBlocks_append {rate : Nat} (hr : 0 < rate) (M d : List Byte) :
    splitBlocks rate (M ++ d) =
      ((splitBlocks rate M).1 ++ (splitBlocks rate ((splitBlocks rate M).2 ++ d)).1,
       (splitBlocks rate ((splitBlocks rate M).2 ++ d)).2) := by
  obtain ⟨h1, h2, _⟩ := splitBlocks_spec hr M
  obtain ⟨k1, k2, k3⟩ := splitBlocks_spec hr ((splitBlocks rate M).2 ++ d)
  refine splitBlocks_eq (fun b hb => ?_) k3 ?_
  · rcases List.mem_append.mp hb with hb | hb
    · exact h2 b hb
    · exact k2 b hb
  · rw [List.flatten_append, List.append_assoc, k1, ← List.append_assoc, h1]

theorem splitBlocks_count {rate : Nat} (hr : 0 < rate) (d : List Byte) :
    (splitBlocks rate d).1.length = d.length / rate := by
  obtain ⟨h1, h2, h3⟩ := splitBlocks_spec hr d
  have hl := congrArg List.length h1
  rw [List.length_append, flatten_length_of_blocks h2] at hl
  rw [← hl, Nat.mul_add_div hr, Nat.div_eq_of_lt h3, Nat.add_zero]

/-! ### Absorbing -/

@[simp] theorem absorbBlocks_nil (A : Lanes) (rate : Nat) : absorbBlocks A [] rate = A := rfl

@[simp] theorem absorbBlocks_cons (A : Lanes) (b : List Byte) (bs : List (List Byte)) (rate : Nat) :
    absorbBlocks A (b :: bs) rate = absorbBlocks (absorbBlock A b rate) bs rate := rfl

/-- The lanes of a XORed block (R133, R134). -/
theorem laneXY_xorBlock (A : Lanes) (blk : List Byte) (rate : Nat) (x y : Fin 5) :
    laneXY (xorBlock A blk rate) x y =
      if (laneIndex x y).val < rate / 8 then laneXY A x y ^^^ le64 ((blk.drop (8 * (laneIndex x y).val)).take 8)
      else laneXY A x y := laneXY_tabulate _ x y

theorem absorbBlocks_append (A : Lanes) (as bs : List (List Byte)) (rate : Nat) :
    absorbBlocks A (as ++ bs) rate = absorbBlocks (absorbBlocks A as rate) bs rate := by
  simp [absorbBlocks]

@[simp] theorem squeeze_length (A : Lanes) (n : Nat) : (squeeze A n).length = n := by simp [squeeze]

/-! ### One update of the object -/

theorem writeBytes_zero_tail (bs : List Byte) (n : Nat) :
    writeBytes (zeroBytes n) 0 bs = bs ++ zeroBytes (n - bs.length) := by
  simp [writeBytes, zeroBytes, List.drop_replicate]

theorem directBlocks_eq (d : List Byte) (s : State) : directBlocks d s =
    ({ s with lanes := absorbBlocks s.lanes (splitBlocks s.rate d).1 s.rate }, (splitBlocks s.rate d).2) := rfl

theorem keepTail_cleared (tail : List Byte) (s : State) :
    keepTail tail { s with rem := zeroBytes s.rate, remLen := 0 } =
      { s with rem := tail ++ zeroBytes (s.rate - tail.length), remLen := tail.length } := by
  cases tail with
  | nil => simp [keepTail]
  | cons b bs => simp [keepTail, writeBytes_zero_tail]

/-- `absorbUpdate` in one equation, for a remainder buffer in its canonical form: split the pending bytes followed by
`d`, absorb the full blocks, keep the rest (R164–R167). -/
theorem absorbUpdate_eq (d : List Byte) (s : State) (hsize : s.rem.length = s.rate) (hlt : s.remLen < s.rate)
    (htail : s.rem.drop s.remLen = zeroBytes (s.rate - s.remLen)) :
    absorbUpdate d s =
      { s with
        lanes := absorbBlocks s.lanes (splitBlocks s.rate (pendingBytes s ++ d)).1 s.rate
        rem := (splitBlocks s.rate (pendingBytes s ++ d)).2 ++
          zeroBytes (s.rate - (splitBlocks s.rate (pendingBytes s ++ d)).2.length)
        remLen := (splitBlocks s.rate (pendingBytes s ++ d)).2.length
        fsm := .accumulating
        digest := none } := by
  have hr : 0 < s.rate := by omega
  have hpl : (pendingBytes s).length = s.remLen := by simp [pendingBytes, hsize]; omega
  have hrem : s.rem = pendingBytes s ++ zeroBytes (s.rate - s.remLen) := by
    rw [← htail, pendingBytes, List.take_append_drop]
  -- the part after the top-up, from a state whose remainder is all zero
  have direct : ∀ (A : Lanes) (e : List Byte),
      keepTail (directBlocks e { s with lanes := A, rem := zeroBytes s.rate, remLen := 0 }).2
        (directBlocks e { s with lanes := A, rem := zeroBytes s.rate, remLen := 0 }).1 =
      { s with lanes := absorbBlocks A (splitBlocks s.rate e).1 s.rate
               rem := (splitBlocks s.rate e).2 ++ zeroBytes (s.rate - (splitBlocks s.rate e).2.length)
               remLen := (splitBlocks s.rate e).2.length } := by
    intro A e
    rw [directBlocks_eq]
    exact keepTail_cleared (splitBlocks s.rate e).2 { s with lanes := absorbBlocks A (splitBlocks s.rate e).1 s.rate }
  by_cases hz : s.remLen = 0
  · have hp : pendingBytes s = [] := List.eq_nil_of_length_eq_zero (by omega)
    have hs : s = { s with lanes := s.lanes, rem := zeroBytes s.rate, remLen := 0 } := by
      have : s.rem = zeroBytes s.rate := by rw [hrem, hp, hz]; simp
      cases s; simp_all
    have ht : topUp d s = (s, d) := by simp [topUp, hz]
    have hd := direct s.lanes d
    rw [← hs] at hd
    simp only [absorbUpdate, ht, hd, hp, List.nil_append]
  · have hpos : 0 < s.remLen := by omega
    by_cases hfull : s.rate ≤ s.remLen + d.length
    · -- the top-up completes a block
      have hk : min (s.rate - s.remLen) d.length = s.rate - s.remLen := by omega
      have hw : (writeBytes s.rem s.remLen (d.take (s.rate - s.remLen))).take s.rate =
          pendingBytes s ++ d.take (s.rate - s.remLen) := by
        have hl : (d.take (s.rate - s.remLen)).length = s.rate - s.remLen := by rw [List.length_take]; omega
        have : s.rem.drop (s.remLen + (d.take (s.rate - s.remLen)).length) = [] := by
          apply List.drop_eq_nil_of_le; omega
        rw [writeBytes, this, List.append_nil]
        apply List.take_of_length_le
        rw [List.length_append, hl, List.length_take, hsize]; omega
      have ht : topUp d s =
          ({ s with lanes := absorbBlock s.lanes (pendingBytes s ++ d.take (s.rate - s.remLen)) s.rate,
                    rem := zeroBytes s.rate, remLen := 0 }, d.drop (s.rate - s.remLen)) := by
        have he : s.remLen + (s.rate - s.remLen) = s.rate := by omega
        simp only [topUp, hpos, hk, he, hw, if_true]
      have hb : (pendingBytes s ++ d.take (s.rate - s.remLen)).length = s.rate := by
        rw [List.length_append, hpl, List.length_take]; omega
      obtain ⟨h1, h2, h3⟩ := splitBlocks_spec hr (d.drop (s.rate - s.remLen))
      have hsplit : splitBlocks s.rate (pendingBytes s ++ d) =
          ((pendingBytes s ++ d.take (s.rate - s.remLen)) :: (splitBlocks s.rate (d.drop (s.rate - s.remLen))).1,
           (splitBlocks s.rate (d.drop (s.rate - s.remLen))).2) := by
        refine splitBlocks_eq (fun b hb' => ?_) h3 ?_
        · rcases List.mem_cons.mp hb' with rfl | hb'
          · exact hb
          · exact h2 b hb'
        · rw [List.flatten_cons, List.append_assoc, h1, List.append_assoc, List.take_append_drop]
      simp only [absorbUpdate, ht, direct, hsplit, absorbBlocks_cons]
    · -- the top-up takes all of `d`
      have hk : min (s.rate - s.remLen) d.length = d.length := by omega
      have hw : writeBytes s.rem s.remLen d = pendingBytes s ++ d ++ zeroBytes (s.rate - (s.remLen + d.length)) := by
        have : s.rem.drop (s.remLen + d.length) = zeroBytes (s.rate - (s.remLen + d.length)) := by
          rw [← List.drop_drop, htail, zeroBytes, List.drop_replicate, zeroBytes]; congr 1; omega
        rw [writeBytes, this]; rfl
      have ht : topUp d s =
          ({ s with rem := pendingBytes s ++ d ++ zeroBytes (s.rate - (s.remLen + d.length)),
                    remLen := s.remLen + d.length }, []) := by
        have he : ¬ s.remLen + d.length = s.rate := by omega
        simp only [topUp, hk, List.take_length, hw, List.drop_length]
        rw [if_pos hpos, if_neg he]
      have hshort : splitBlocks s.rate (pendingBytes s ++ d) = ([], pendingBytes s ++ d) :=
        splitBlocks_short (by rw [List.length_append, hpl]; omega)
      have hnil : splitBlocks s.rate [] = ([], []) := splitBlocks_short (by simpa using hr)
      have hlen : (pendingBytes s ++ d).length = s.remLen + d.length := by rw [List.length_append, hpl]
      simp [absorbUpdate, ht, directBlocks, keepTail, hnil, hshort, hlen]

end Sys2Proof.Machine
end

