-- ==== Sys2Proof/Tests/Slice0.lean ====
section
/-! SUPPORT. The model's own tests: the smoke tests of `Instr.wf`, decoding of words written out from the spec, single
steps with expected values from spec/95_test_vectors.md (each names its vector), and a witness for the hypotheses of
every obligation that has some. -/

namespace Sys2Proof.Tests

open Sys2Proof Sys2Proof.Machine

/-! ### Small states -/

/-- `"abc"`. -/
def abc : List Byte := [0x61, 0x62, 0x63]

/-- Reset, and then `kupdate "abc", 0, 3`. -/
def abcState : State := { State.reset with rem := abc ++ zeroBytes 133, remLen := 3, fsm := .accumulating }

/-- `abcState` after KDIGEST. -/
def cachedState : State := { abcState with fsm := .finalized, digest := some (computeDigest abcState) }

/-- `abcState` after a fatal KINIT. -/
def haltedState : State := { abcState with lastErr := .internalInvariantViolation, halted := true }

/-- The Fresh object of a configuration. -/
def configured (n r : Nat) : State := { State.reset with outlen := n, rate := r, rem := zeroBytes r }

/-- The response and the status word after the packet `ws`. -/
def answerTo (s : State) (ws : List Word) : Option (List Word × Word) :=
  match step (hostSend ws s) with
  | .next t => some (t.output.drop s.output.length, statusWord t)
  | .fault _ => none
  | .refused _ => none

/-- The valid remainder bytes after the packet `ws`. -/
def pendingAfter (s : State) (ws : List Word) : Option (List Byte) :=
  match step (hostSend ws s) with
  | .next t => some (pendingBytes t)
  | .fault _ => none
  | .refused _ => none

theorem abcState_inv : abcState.Inv where
  outlen_valid := .inl (by decide)
  rate_eq := by decide
  rem_size := by decide +kernel
  remLen_lt := by decide
  rem_tail := by decide +kernel
  fresh := by intro h; cases h
  cache_valid := by decide
  cache_value := by intro d h; cases h
  halted_iff := by decide
  lastErr_ne := by decide

theorem cachedState_inv : cachedState.Inv :=
  { abcState_inv with
    fresh := by intro h; cases h
    cache_valid := ⟨fun _ => rfl, fun _ => rfl⟩
    cache_value := by intro d h; exact (Option.some.inj h).symm }

theorem haltedState_inv : haltedState.Inv :=
  { abcState_inv with
    halted_iff := ⟨fun _ => rfl, fun _ => rfl⟩
    lastErr_ne := by decide }

/-! ### Well-formedness: one ill-formed command for each check -/

theorem test_wf_refuses_kinit_imm : (Instr.kinit 65536).wf = false := by decide

theorem test_wf_refuses_khash_imm : (Instr.khash 65536 []).wf = false := by decide

theorem test_wf_refuses_krdlane_imm : (Instr.krdlane 65536).wf = false := by decide

theorem test_wf_refuses_off_high : (Instr.kupdate [] 2147483648 0).wf = false := by decide

theorem test_wf_refuses_len_low : (Instr.kupdate [] 0 (-2147483649)).wf = false := by decide

theorem test_wf_refuses_long_payload (data : List Byte) (h : data.length = 4294967296) :
    (Instr.kupdate data 0 0).wf = false ∧ (Instr.khash 32 data).wf = false := by
  constructor <;> simp [Instr.wf, fitsDlen, h]

theorem test_wf_accepts_boundaries :
    (Instr.kinit 65535).wf = true ∧ (Instr.krdlane 65535).wf = true ∧ (Instr.khash 65535 abc).wf = true ∧
    (Instr.kupdate abc (-2147483648) 2147483647).wf = true := by decide

/-! ### Decoding: words written out from R71–R79 and R90 -/

theorem test_decode_kinit :
    decode [0x01000020] = .command (.kinit 32) 1 ∧ decode [0x010000C8] = .command (.kinit 200) 1 := by decide

theorem test_decode_kreset : decode [0x02000000] = .command .kreset 1 := by decide

theorem test_decode_kupdate :
    decode [0x03000000, 0x00000003, 0x00000000, 0x00000003, 0x00636261] = .command (.kupdate abc 0 3) 5 ∧
    decode [0x03000000, 0, 0, 0] = .command (.kupdate [] 0 0) 4 ∧
    decode [0x03000000, 0x00000002, 0xFFFFFFFF, 0x80000000, 0x00006261]
      = .command (.kupdate [0x61, 0x62] (-1) (-2147483648)) 5 := by decide

theorem test_decode_kdigest : decode [0x04000000] = .command .kdigest 1 := by decide

theorem test_decode_khash :
    decode [0x05000020, 0] = .command (.khash 32 []) 2 ∧
    decode [0x05000020, 0x00000005, 0x64636261, 0x00000065, 0x08000000]
      = .command (.khash 32 [0x61, 0x62, 0x63, 0x64, 0x65]) 4 := by decide

theorem test_decode_kpermute : decode [0x06000000] = .command .kpermute 1 := by decide

theorem test_decode_krdlane : decode [0x07000018] = .command (.krdlane 24) 1 := by decide

theorem test_decode_kstatus : decode [0x08000000] = .command .kstatus 1 := by decide

/-- R81–R84: the illegal packets of R90, and the framing of a KUPDATE with a non-zero immediate (V151). -/
theorem test_decode_illegal :
    decode [0x02010000] = .illegal .reservedNonzero 1 ∧ decode [0x09000000] = .illegal .unassignedOpcode 1 ∧
    decode [0x00000000] = .illegal .unassignedOpcode 1 ∧ decode [0x02000001] = .illegal .immediateNonzero 1 ∧
    decode [0x03000001, 0x00000003, 0x00000000, 0x00000003, 0x00636261] = .illegal .immediateNonzero 5 := by decide

/-- R85: packets with words missing, the header words among them. -/
theorem test_decode_incomplete :
    decode [] = .incomplete ∧ decode [0x03000000, 3, 0] = .incomplete ∧ decode [0x05000020] = .incomplete ∧
    decode [0x03000000, 3, 0, 3] = .incomplete := by decide

/-- R90, in the other direction. -/
theorem test_encode :
    encode (.kupdate [0x61, 0x62] 0 (-1)) = [0x03000000, 0x00000002, 0x00000000, 0xFFFFFFFF, 0x00006261] ∧
    encode (.khash 32 [0x61, 0x62, 0x63, 0x64, 0x65]) = [0x05000020, 0x00000005, 0x64636261, 0x00000065] ∧
    encode (.krdlane 24) = [0x07000018] ∧ encode (.kinit 200) = [0x010000C8] := by decide

/-- Every row of the opcode table, its operand words zero. -/
theorem test_table_words :
    decodeTableWord 32 0x01000020 = some (.kinit 32) ∧ decodeTableWord 32 0x02000000 = some .kreset ∧
    decodeTableWord 32 0x03000000 = some (.kupdate [] 0 0) ∧ decodeTableWord 32 0x04000000 = some .kdigest ∧
    decodeTableWord 32 0x05000020 = some (.khash 32 []) ∧ decodeTableWord 32 0x06000000 = some .kpermute ∧
    decodeTableWord 32 0x07000018 = some (.krdlane 24) ∧ decodeTableWord 32 0x08000000 = some .kstatus ∧
    decodeTableWord 64 0x0000000005000020 = some (.khash 32 []) ∧
    decodeTableWord 160 0x0063626100000003000000000000000303000000 = some (.kupdate abc 0 3) := by decide

theorem test_withFetchWord_runs :
    fetch (haltedState.withFetchWord 32 0x03000000) = .command (.kupdate [] 0 0) 4 ∧
    answerTo (State.reset.withFetchWord 32 0x08000000) [] = some ([0, 0x88200000], 0x88200000) := by decide +kernel

/-! ### The assembler (R87, R88) -/

theorem test_assemble_pseudo :
    assembleLine .knew = some [0x01000020] ∧ assembleLine (.knewLength 64) = some [0x01000040] ∧
    assembleLine (.kupdateAll (.text ['a', 'b', 'c']))
      = some [0x03000000, 0x00000003, 0x00000000, 0x00000003, 0x00636261] ∧
    assembleLine (.khashDefault (.hex [])) = some [0x05000020, 0x00000000] := by decide

/-- V3: the UTF-8 bytes of the two characters U+4E2D and U+6587. -/
theorem test_utf8 : utf8 [Char.ofNat 0x4E2D, Char.ofNat 0x6587] = [0xE4, 0xB8, 0xAD, 0xE6, 0x96, 0x87] := by decide

theorem test_assemble_refuses_wide : assembleLine (.kinit 65536) = none := by decide

/-! ### Steps of the permutation (95_test_vectors.md) -/

/-- V20 and V22. -/
theorem test_theta :
    (theta ((zeroLanes).set 0 1)).toList =
      [1, 1, 0, 0, 2, 0, 1, 0, 0, 2, 0, 1, 0, 0, 2, 0, 1, 0, 0, 2, 0, 1, 0, 0, 2] ∧
    theta ((zeroLanes.set 0 1).set 5 1) = (zeroLanes.set 0 1).set 5 1 := by decide +kernel

/-- V33 and V35. -/
theorem test_rhoPi :
    rhoPi (zeroLanes.set 6 1) = zeroLanes.set 1 0x0000100000000000 ∧
    rhoPi (zeroLanes.set 24 1) = zeroLanes.set 4 0x0000000000004000 := by decide +kernel

/-- V45, in row 0. -/
theorem test_chi :
    ((chi (((zeroLanes.set 0 0xF0).set 1 0xCC).set 2 0xAA)).toList.take 5) = [0xD2, 0xCC, 0xAA, 0xF0, 0x0C] := by
  decide +kernel

/-- V51. -/
theorem test_iota : iota zeroLanes 23 = zeroLanes.set 0 0x8000000080008008 := by decide +kernel

/-- V80, V82. -/
theorem test_padBlock :
    padBlock [] 136 = 0x01 :: zeroBytes 134 ++ [0x80] ∧
    padBlock (List.replicate 135 0x61) 136 = List.replicate 135 0x61 ++ [0x81] := by decide +kernel

/-! ### Single steps (95_test_vectors.md) -/

/-- V131, V134. -/
theorem test_kinit_accepts :
    answerTo State.reset [0x01000040] = some ([0], 0x48400000) ∧
    answerTo State.reset [0x01000001] = some ([0], 0xC6010000) := by decide +kernel

/-- V136, V138, V139. -/
theorem test_kinit_errors :
    answerTo (configured 99 2) [0x01000000] = some ([1], 0x02630010) ∧
    answerTo (configured 99 2) [0x01000064] = some ([3], 0x02630038) ∧
    answerTo State.reset [0x01010096] = some ([4], 0x88200040) := by decide +kernel

/-- V171, V172. -/
theorem test_kreset :
    answerTo { configured 64 72 with rem := abc ++ zeroBytes 69, remLen := 3, fsm := .accumulating } [0x02000000]
      = some ([0], 0x48400000) ∧
    answerTo (configured 64 72) [0x02000001] = some ([4], 0x48400040) := by decide +kernel

/-- V140, V150. -/
theorem test_kupdate_window :
    answerTo State.reset [0x03000000, 0x00000003, 0x00000000, 0x00000003, 0x00636261] = some ([0], 0x88200301) ∧
    pendingAfter State.reset [0x03000000, 0x00000007, 0x00000002, 0x00000003, 0x62617878, 0x00787863] = some abc := by
  decide +kernel

/-- V143, V144, V146, V148. -/
theorem test_kupdate_errors :
    answerTo abcState [0x03000000, 0x00000002, 0x00000009, 0xFFFFFFFF, 0x00006261] = some ([1], 0x88200311) ∧
    answerTo abcState [0x03000000, 0x00000002, 0xFFFFFFFF, 0x00000001, 0x00006261] = some ([2], 0x88200321) ∧
    answerTo abcState [0x03000000, 0x00000002, 0x00000002, 0x00000000, 0x00006261] = some ([0], 0x88200301) ∧
    answerTo abcState [0x03000000, 0x00000002, 0x7FFFFFFF, 0x7FFFFFFF, 0x00006261] = some ([2], 0x88200321) := by
  decide +kernel

/-- V149. -/
theorem test_kdigest_abc :
    answerTo abcState [0x04000000] =
      some ([0, 0x7A65034E, 0x4FA945EA, 0xA87BD4C7, 0x67D6C826, 0xE3E6D1C0, 0x36A0643A, 0x8FF544EC, 0x456C2DA1],
        0x88200306) := by decide +kernel

/-- V181. -/
theorem test_khash_abcde :
    answerTo State.reset [0x05000020, 0x00000005, 0x64636261, 0x00000065] =
      some ([0, 0xE6C77763, 0x65CB8160, 0xB9C173E4, 0x5A19B55D, 0x714AD027, 0x8968B408, 0xDBBE2402, 0xEBA6A8E1],
        0x88200000) := by decide +kernel

/-- V186, V187, V188. -/
theorem test_khash_errors :
    answerTo State.reset [0x050000C9, 0] = some ([1], 0x88200010) ∧
    answerTo State.reset [0x0500001B, 0] = some ([3], 0x88200038) ∧
    answerTo { State.reset with lastErr := .internalInvariantViolation, halted := true } [0x05000020, 0]
      = some ([5], 0x88200038) := by decide +kernel

/-- V60, by V201 and V202: lanes 0 and 24 of `KeccakF(0)`. -/
theorem test_kpermute : ((keccakF zeroLanes)[0], (keccakF zeroLanes)[24]) = (0xF1258F7940E1DDE7, 0xEAF1FF7B5CECA249) := by
  decide +kernel

/-- V200, V204. -/
theorem test_kpermute_status :
    answerTo State.reset [0x06000000] = some ([0], 0x88200001) ∧
    answerTo { State.reset with fsm := .accumulating } [0x06000005] = some ([4], 0x88200041) := by decide +kernel

/-- V202 (the lane set by hand), V203. -/
theorem test_krdlane :
    answerTo { State.reset with lanes := zeroLanes.set 24 0xEAF1FF7B5CECA249, fsm := .accumulating } [0x07000018]
      = some ([0, 0x5CECA249, 0xEAF1FF7B], 0x88200001) ∧
    answerTo { State.reset with fsm := .accumulating } [0x07000019] = some ([2], 0x88200021) := by decide +kernel

/-- V210, V212. -/
theorem test_kstatus :
    answerTo State.reset [0x08000000] = some ([0, 0x88200000], 0x88200000) ∧
    answerTo { configured 99 2 with lastErr := .internalInvariantViolation, halted := true } [0x08000000]
      = some ([0, 0x02630038], 0x02630038) := by decide +kernel

/-! ### Witnesses: states and operands that meet the hypotheses of each obligation, clause by clause -/

/-- A host that has sent the words `ws`. -/
def sent (ws : List Word) (s : State) : State := { s with input := ws }

/-- The packet of `kupdate "abc", 0, 3` (R90). -/
def abcPacket : List Word := [0x03000000, 0x00000003, 0x00000000, 0x00000003, 0x00636261]

theorem witness_DecodeOfEncodeIsTheCommand :
    (Instr.kinit 65535).wf = true ∧ (Instr.kupdate abc (-2147483648) 2147483647).wf = true ∧
    (Instr.khash 0 abc).wf = true ∧ (Instr.krdlane 65535).wf = true ∧ Instr.kstatus.wf = true := by decide

/-- A packet with a padding byte and one without. -/
theorem witness_EncodeOfDecodeIsThePacket :
    decode (abcPacket ++ [7]) = .command (.kupdate abc 0 3) 5 ∧ paddingBytes (.kupdate abc 0 3) = 1 ∧
    decode [0x07000018] = .command (.krdlane 24) 1 ∧ paddingBytes (.krdlane 24) = 0 := by decide

theorem witness_PayloadBytesAndIgnoredPadding :
    (2 < 3 ∧ (unpackBytes 3 [0x00636261])[2]? = some 0x63) ∧
    ((Instr.kupdate abc 0 3).wf = true ∧ 0 < paddingBytes (.kupdate abc 0 3) ∧
      (wordBytes 0xFF636261).take (4 - paddingBytes (.kupdate abc 0 3)) =
        (wordBytes ((encode (.kupdate abc 0 3)).getLastD 0)).take (4 - paddingBytes (.kupdate abc 0 3))) ∧
    ((Instr.khash 32 [0x65]).wf = true ∧ 0 < paddingBytes (.khash 32 [0x65]) ∧
      (wordBytes 0xABCDEF65).take (4 - paddingBytes (.khash 32 [0x65])) =
        (wordBytes ((encode (.khash 32 [0x65])).getLastD 0)).take (4 - paddingBytes (.khash 32 [0x65]))) := by decide

theorem witness_AssembledLinesDecode : assembleLine (.kupdateAll (.text ['a', 'b', 'c'])) = some abcPacket := by decide

theorem witness_StepRunsTheDecodedCommand :
    (sent abcPacket State.reset).resetIn = false ∧ (sent abcPacket State.reset).respReady = true ∧
    decode (sent abcPacket State.reset).input = .command (.kupdate abc 0 3) 5 := by decide

/-- A KUPDATE, a KHASH, a one-word command and an unassigned opcode. -/
theorem witness_CspMovesByTheFramedLength :
    (∃ t, step (sent abcPacket State.reset) = .next t) ∧
    (∃ t, step (sent [0x0500001B, 0] State.reset) = .next t) ∧
    (∃ t, step (sent [0x08000000] State.reset) = .next t) ∧
    (∃ t, step (sent [0x00000000, 5] State.reset) = .next t) ∧
    (sent abcPacket State.reset).resetIn = false := ⟨⟨_, rfl⟩, ⟨_, rfl⟩, ⟨_, rfl⟩, ⟨_, rfl⟩, rfl⟩

/-- Opcodes 0, 9 and 255, a non-zero `RSV`, and a non-zero `IMM16` in a whole 5-word packet. -/
theorem witness_IllegalPacketsRaiseIllegalCommand :
    State.reset.resetIn = false ∧ State.reset.respReady = true ∧ State.reset.halted = false ∧
    (frameLength [0x00000000] = some 1 ∧ opcField 0x00000000 = 0) ∧
    (frameLength [0x09000000] = some 1 ∧ 9 ≤ opcField 0x09000000) ∧
    (frameLength [0xFF000000] = some 1 ∧ 9 ≤ opcField 0xFF000000) ∧
    (frameLength [0x01010020] = some 1 ∧ rsvField 0x01010020 ≠ 0) ∧
    (frameLength (0x03000001 :: abcPacket.tail) = some 5 ∧ opcField 0x03000001 ∈ [0x02, 0x03, 0x04, 0x06, 0x08] ∧
      immField 0x03000001 ≠ 0) ∧
    (opcField 0x0800FFFF ∈ [0x02, 0x03, 0x04, 0x06, 0x08] ∧ immField 0x0800FFFF ≠ 0) := by decide

/-- Nothing sent; all but the last word sent; a KUPDATE header cut short; an illegal KHASH packet cut short. -/
theorem witness_IncompletePacketWaits :
    State.reset.resetIn = false ∧ State.reset.respReady = true ∧ State.reset.input = [] ∧
    (opcodeOf (opcField 0x03000000) = some .kupdate ∧ ([3, 0] : List Word).length < 3 + ((3 : Word).toNat + 3) / 4) ∧
    (opcodeOf (opcField 0x05FF0020) = some .khash ∧ ([1] : List Word).length < 1 + ((1 : Word).toNat + 3) / 4) ∧
    (Instr.kupdate abc 0 3).wf = true ∧ State.reset.input = (encode (.kupdate abc 0 3)).take 0 ∧
    4 < (encode (.kupdate abc 0 3)).length ∧
    (sent (abcPacket.take 4) State.reset).input = (encode (.kupdate abc 0 3)).take 4 := by decide

theorem witness_HeldWhileResponsesAreRefused :
    (platformReady false (sent abcPacket State.reset)).resetIn = false ∧
    (platformReady false (sent abcPacket State.reset)).respReady = false ∧
    decode (platformReady false (sent abcPacket State.reset)).input ≠ .incomplete := by decide

theorem witness_HardwareResetRestoresEverything :
    (hostAssertReset haltedState).resetIn = true ∧ (hostAssertReset haltedState).halted = true ∧
    ∃ t, step (hostAssertReset haltedState) = .next t ∧ t.halted = false := ⟨rfl, rfl, _, rfl, rfl⟩

/-- An illegal packet, running and halted: the last clauses of the statements over every packet. -/
theorem witness_illegal_packet :
    (sent [0x09000000] abcState).resetIn = false ∧
    decode (sent [0x09000000] abcState).input = .illegal .unassignedOpcode 1 ∧
    (∃ t, step (sent [0x09000000] abcState) = .next t) ∧
    decode (sent [0x02010000] haltedState).input = .illegal .reservedNonzero 1 ∧
    ∃ t, step (sent [0x02010000] haltedState) = .next t := ⟨rfl, by decide, ⟨_, rfl⟩, by decide, _, rfl⟩

theorem witness_EveryStepKeepsTheInvariants :
    (sent [0x08000000] haltedState).Inv ∧ (∃ t, step (sent [0x08000000] haltedState) = .next t) ∧
    (sent abcPacket cachedState).Inv ∧ (∃ t, step (sent abcPacket cachedState) = .next t) ∧
    (hostAssertReset cachedState).Inv ∧ (∃ t, step (hostAssertReset cachedState) = .next t) :=
  ⟨{ haltedState_inv with }, ⟨_, rfl⟩, { cachedState_inv with }, ⟨_, rfl⟩, { cachedState_inv with }, ⟨_, rfl⟩⟩

/-- Hardware reset; a halted step; an illegal packet; each command, KINIT and KUPDATE accepted and refused. -/
theorem witness_LanesChangeOnlyByAbsorbingPermutingZeroing :
    abcState.Inv ∧ haltedState.Inv ∧
    (∃ t, step (hostAssertReset haltedState) = .next t) ∧
    (∃ t, step (sent [0x06000000] haltedState) = .next t) ∧
    (∃ t, step (sent [0x02010000] abcState) = .next t) ∧
    (∃ t, step (sent [0x010000C8] abcState) = .next t) ∧ (∃ t, step (sent [0x01000064] abcState) = .next t) ∧
    (∃ t, step (sent [0x02000000] abcState) = .next t) ∧
    (∃ t, step (sent abcPacket abcState) = .next t) ∧
    (∃ t, step (sent [0x03000000, 0, 1, 0] abcState) = .next t) ∧
    (∃ t, step (sent [0x04000000] abcState) = .next t) ∧ (∃ t, step (sent [0x0500001C, 0] abcState) = .next t) ∧
    (∃ t, step (sent [0x06000000] abcState) = .next t) ∧ (∃ t, step (sent [0x07000018] abcState) = .next t) ∧
    ∃ t, step (sent [0x08000000] abcState) = .next t :=
  ⟨abcState_inv, haltedState_inv, ⟨_, rfl⟩, ⟨_, rfl⟩, ⟨_, rfl⟩, ⟨_, rfl⟩, ⟨_, rfl⟩, ⟨_, rfl⟩, ⟨_, rfl⟩, ⟨_, rfl⟩,
    ⟨_, rfl⟩, ⟨_, rfl⟩, ⟨_, rfl⟩, ⟨_, rfl⟩, _, rfl⟩

/-- A KINIT of another length, and a KRESET. -/
theorem witness_ConfigurationWrittenOnlyByKinitAndReset :
    (∃ t, step (sent [0x01000040] abcState) = .next t ∧ t.outlen = 64) ∧
    (∃ t, step (sent [0x02000000] abcState) = .next t ∧ t.outlen = 32) ∧
    (sent [0x01000040] abcState).resetIn = false := ⟨⟨_, rfl, rfl⟩, ⟨_, rfl, rfl⟩, rfl⟩

/-- Hardware reset; every command accepted, KUPDATE with `LEN = 0` and above; and an error. -/
theorem witness_FsmTransitionTable :
    ((hostAssertReset cachedState).resetIn = true ∧ ∃ t, step (hostAssertReset cachedState) = .next t) ∧
    abcState.Inv ∧
    (∃ t, exec (.kinit 99) abcState = .next t ∧ t.output = abcState.output ++ responseWords .ok []) ∧
    (∃ t, exec .kreset abcState = .next t ∧ t.output = abcState.output ++ responseWords .ok []) ∧
    (∃ t, exec (.kupdate abc 3 0) abcState = .next t ∧ t.output = abcState.output ++ responseWords .ok []) ∧
    (∃ t, exec (.kupdate abc 2 1) abcState = .next t ∧ t.output = abcState.output ++ responseWords .ok []) ∧
    (∃ t out, exec .kdigest abcState = .next t ∧ t.output = abcState.output ++ responseWords .ok out) ∧
    (∃ t out, exec (.khash 28 abc) abcState = .next t ∧ t.output = abcState.output ++ responseWords .ok out) ∧
    (∃ t, exec .kpermute abcState = .next t ∧ t.output = abcState.output ++ responseWords .ok []) ∧
    (∃ t out, exec (.krdlane 24) abcState = .next t ∧ t.output = abcState.output ++ responseWords .ok out) ∧
    (∃ t out, exec .kstatus abcState = .next t ∧ t.output = abcState.output ++ responseWords .ok out) ∧
    (∃ t, exec (.krdlane 25) abcState = .next t ∧ t.output = abcState.output ++ responseWords .outOfRange []) := by
  refine ⟨⟨rfl, _, rfl⟩, abcState_inv, ⟨_, exec_kinit_running 99 rfl, by decide⟩, ⟨_, exec_kreset_running rfl, by decide⟩,
    ⟨_, exec_kupdate_running abc 3 0 rfl, by decide⟩, ⟨_, exec_kupdate_running abc 2 1 rfl, by decide +kernel⟩,
    ⟨_, packBytes (digestBytes (finalizeDigest abcState)), exec_kdigest_running rfl, ?_⟩,
    ⟨_, packBytes (oneShotHash abc 28), exec_khash_running 28 abc rfl, ?_⟩, ⟨_, exec_kpermute_running rfl, rfl⟩,
    ⟨_, laneWords (laneAt abcState.lanes 24), exec_krdlane_running 24 rfl, by decide⟩, ⟨_, [statusWord abcState], rfl, rfl⟩,
    ⟨_, exec_krdlane_running 25 rfl, by decide⟩⟩
  · rw [complete_output, (finalizeDigest_frame abcState).2.2.2.2.2.2.2.2]
  · rw [khashError_eq_none.mpr (.inl (by decide)), checked_none, complete_output]

/-- Not halted, KSTATUS, and halted. -/
theorem witness_LastErrRecordsTheResult :
    (∃ t, exec (.krdlane 25) abcState = .next t ∧ t.output = abcState.output ++ responseWords .outOfRange []) ∧
    (∃ t out, exec .kstatus abcState = .next t ∧ t.output = abcState.output ++ responseWords .ok out) ∧
    (∃ t, exec .kreset haltedState = .next t ∧ t.output = haltedState.output ++ responseWords .halted []) :=
  ⟨⟨_, exec_krdlane_running 25 rfl, by decide⟩, ⟨_, [statusWord abcState], rfl, rfl⟩, ⟨_, rfl, by decide⟩⟩

theorem witness_OnlyHardwareResetLeavesTheHalt :
    (sent [0x02000000] haltedState).halted = true ∧ (sent [0x02000000] haltedState).resetIn = false ∧
    ∃ t, step (sent [0x02000000] haltedState) = .next t := ⟨rfl, rfl, _, rfl⟩

theorem witness_HaltedRejectsAllButKstatus :
    haltedState.halted = true ∧ Instr.kdigest ≠ .kstatus ∧
    (sent [0x09000000] haltedState).halted = true ∧ (sent [0x09000000] haltedState).resetIn = false ∧
    (sent [0x09000000] haltedState).respReady = true ∧
    decode (sent [0x09000000] haltedState).input = .illegal .unassignedOpcode 1 := by decide

/-- The four error codes that a decoded command raises. -/
theorem witness_ErrorsArePreciseWithoutSideEffects :
    (∃ t, exec (.kinit 0) abcState = .next t ∧ t.output = abcState.output ++ responseWords .invalidArgument []) ∧
    (∃ t, exec (.krdlane 25) abcState = .next t ∧ t.output = abcState.output ++ responseWords .outOfRange []) ∧
    (∃ t, exec (.khash 27 abc) abcState = .next t ∧
      t.output = abcState.output ++ responseWords .internalInvariantViolation []) ∧
    (∃ t, exec .kdigest haltedState = .next t ∧ t.output = haltedState.output ++ responseWords .halted []) :=
  ⟨⟨_, exec_kinit_running 0 rfl, by decide⟩, ⟨_, exec_krdlane_running 25 rfl, by decide⟩,
    ⟨_, exec_khash_running 27 abc rfl, by decide⟩, ⟨_, rfl, by decide⟩⟩

/-- `witness_FsmTransitionTable` shows an `OK` of every command and an error. -/
theorem witness_OneResponsePerPacket : abcState.Inv ∧ ∀ i, ∃ t, exec i abcState = .next t :=
  ⟨abcState_inv, fun i => exec_answers_next i abcState⟩

/-- The ends of each range. -/
theorem witness_KinitByOutputLength :
    abcState.halted = false ∧ ValidOutlen 1 ∧ ValidOutlen 99 ∧ ValidOutlen 200 ∧
    ((0 = 0 ∨ 200 < 0) ∧ (201 = 0 ∨ 200 < 201)) ∧ (100 ≤ 100 ∧ 100 ≤ 199) ∧ (100 ≤ 199 ∧ 199 ≤ 199) := by
  unfold ValidOutlen; decide

theorem witness_KresetClearsAndKeepsConfiguration : cachedState.halted = false := rfl

theorem witness_KinitWithSameLengthIsKreset : cachedState.Inv := cachedState_inv

/-- `LEN = -1` with an offset that is out of range too; `OFF = -1`; one byte too many; `LEN = 0` at both ends. -/
theorem witness_KupdateChecksItsWindow :
    abcState.halted = false ∧ (-1 : Int) < 0 ∧
    ((0 : Int) ≤ 0 ∧ ((-1 : Int) < 0 ∨ (-1 : Int) + 0 > abc.length)) ∧
    ((0 : Int) ≤ 4 ∧ ((0 : Int) < 0 ∨ (0 : Int) + 4 > abc.length)) ∧
    ((0 : Int) ≤ 0 ∧ (0 : Int) ≤ abc.length) ∧ ((0 : Int) ≤ 3 ∧ (3 : Int) ≤ abc.length) := by decide

/-- The whole payload, and its last byte. -/
theorem witness_KupdateAbsorbsItsWindow :
    cachedState.Inv ∧ cachedState.halted = false ∧ ((0 : Int) < 3 ∧ (0 : Int) ≤ 0 ∧ (0 : Int) + 3 ≤ abc.length) ∧
    ((0 : Int) < 1 ∧ (0 : Int) ≤ 2 ∧ (2 : Int) + 1 ≤ abc.length) := ⟨cachedState_inv, rfl, by decide, by decide⟩

theorem witness_KupdatePermutationCount :
    abcState.Inv ∧ abcState.halted = false ∧ ((0 : Int) < 3 ∧ (0 : Int) ≤ 0 ∧ (0 : Int) + 3 ≤ abc.length) ∧
    ∃ t, exec (.kupdate abc 0 3) abcState = .next t := ⟨abcState_inv, rfl, by decide, _, rfl⟩

theorem witness_KdigestFinalizesACopyOrServesTheCache :
    (abcState.halted = false ∧ abcState.digest = none) ∧
    cachedState.halted = false ∧ cachedState.digest = some (computeDigest abcState) ∧
    (computeDigest abcState).length = cachedState.outlen := ⟨⟨rfl, rfl⟩, rfl, rfl, squeeze_length _ _⟩

theorem witness_CacheIsNeverObservableInTheDigest :
    cachedState.Inv ∧ (∃ t, exec .kdigest cachedState = .next t) ∧
    ∃ u, exec .kdigest { cachedState with digest := none } = .next u := ⟨cachedState_inv, ⟨_, rfl⟩, _, rfl⟩

/-- The ends of each range. -/
theorem witness_KhashByOutputLength :
    abcState.halted = false ∧ OneShotOutlen 28 ∧ OneShotOutlen 99 ∧ OneShotOutlen 200 ∧
    ((0 = 0 ∨ 200 < 0) ∧ (201 = 0 ∨ 200 < 201)) ∧
    (((1 ≤ 1 ∧ 1 ≤ 27) ∨ (100 ≤ 1 ∧ 1 ≤ 199)) ∧ ((1 ≤ 27 ∧ 27 ≤ 27) ∨ (100 ≤ 27 ∧ 27 ≤ 199)) ∧
      ((1 ≤ 100 ∧ 100 ≤ 27) ∨ (100 ≤ 100 ∧ 100 ≤ 199)) ∧ ((1 ≤ 199 ∧ 199 ≤ 27) ∨ (100 ≤ 199 ∧ 199 ≤ 199))) := by
  unfold OneShotOutlen; decide

theorem witness_KhashResponseIndependentOfTheState :
    abcState.halted = false ∧ cachedState.halted = false ∧ (∃ t, exec (.khash 28 abc) abcState = .next t) ∧
    ∃ t, exec (.khash 28 abc) cachedState = .next t := ⟨rfl, rfl, ⟨_, rfl⟩, _, rfl⟩

theorem witness_KpermutePermutesTheLanes : cachedState.halted = false := rfl

/-- Lane `(4,4)` is the last index, 24, and 25 is the first out of range. -/
theorem witness_KrdlaneReadsOneLane :
    abcState.halted = false ∧ 5 * (4 : Fin 5).val + (4 : Fin 5).val = 24 ∧ 24 < 25 := by decide

theorem witness_KstatusReportsTheFields : cachedState.Inv ∧ haltedState.Inv := ⟨cachedState_inv, haltedState_inv⟩

theorem witness_KstatusCornerCases :
    haltedState.Inv ∧ haltedState.halted = true ∧ Instr.kreset ≠ .kstatus ∧
    ((sent [0x08010000] haltedState).resetIn = false ∧ (sent [0x08010000] haltedState).respReady = true ∧
      (sent [0x08010000] haltedState).input = [0x08010000] ∧ opcField 0x08010000 = 8 ∧ rsvField 0x08010000 ≠ 0) ∧
    (opcField 0x08000001 = 8 ∧ immField 0x08000001 ≠ 0) ∧ ∃ t, exec .kstatus abcState = .next t :=
  ⟨haltedState_inv, rfl, by decide, by decide, by decide, _, rfl⟩

theorem witness_ConstantTablesMatchTheirDerivations : (4, 4) ≠ ((0, 0) : Fin 5 × Fin 5) := by decide

/-- V22: two lanes of one column. -/
theorem witness_ThetaByLane : ∀ x, columnParity ((zeroLanes.set 0 1).set 5 1) x = 0 := by decide

theorem witness_RotationIsCircular : 0 < 64 ∧ 63 < 64 := by decide

/-- The states between rounds. -/
def afterRounds (A : Lanes) : Nat → Lanes
  | 0 => A
  | r + 1 => if h : r < 24 then permRound (afterRounds A r) ⟨r, h⟩ else afterRounds A r

theorem witness_KeccakIsTwentyFourRounds (r : Fin 24) :
    afterRounds zeroLanes (r.val + 1) = iota (chi (rhoPi (theta (afterRounds zeroLanes r.val)))) r := by
  rw [afterRounds, dif_pos r.isLt]; rfl

theorem witness_ValidRates : (1 ≤ 1 ∧ 1 ≤ 200) ∧ (1 ≤ 100 ∧ 100 ≤ 200) ∧ (1 ≤ 200 ∧ 200 ≤ 200) := by decide

/-- The rate 134 of `OUTLEN = 33`: 16 lanes, and six bytes that do not reach the state. -/
theorem witness_AbsorptionIsLaneGranular :
    (zeroBytes 134).length = 134 ∧ 134 ≤ 200 ∧ (15 < 134 / 8 ∧ 7 < 8 ∧ 134 / 8 ≤ 16) ∧
    (zeroBytes 128 ++ [1, 2, 3, 4, 5, 6]).take (8 * (134 / 8)) = (zeroBytes 134).take (8 * (134 / 8)) := by
  decide +kernel

theorem witness_PadBlockByByte : ([] : List Byte).length < 2 ∧ [(0x61 : Byte)].length < 2 ∧ 0 < 2 ∧ 1 < 2 := by decide

theorem witness_SqueezeIsLittleEndian : 0 < 1 ∧ 1 ≤ 200 ∧ 199 < 200 ∧ 200 ≤ 200 := by decide

theorem witness_SpongeHashAbsorbsTheMessage :
    (ValidOutlen 1 ∧ ((198 : Nat) : Int) = rateOf 1) ∧ (ValidOutlen 99 ∧ ((2 : Nat) : Int) = rateOf 99) ∧
    (ValidOutlen 200 ∧ ((136 : Nat) : Int) = rateOf 200) := by unfold ValidOutlen; decide

theorem abcState_holds_abc : abcState.HoldsStream abc := by
  have h : splitBlocks 136 abc = ([], abc) := by decide +kernel
  exact ⟨by rw [show abcState.rate = 136 from rfl, h]; rfl, by rw [show abcState.rate = 136 from rfl, h]; decide,
    by rw [show abcState.rate = 136 from rfl, h]; rfl⟩

/-- An accepted KUPDATE, a refused one, and a KRDLANE. -/
theorem witness_IncrementalDigestIsTheSpongeHashOfTheStream :
    abcState.Inv ∧ abcState.HoldsStream abc ∧
    (∀ c ∈ [Instr.kupdate abc 1 2, .kupdate abc 2 2, .krdlane 0], keepsStream c = true) ∧
    ∃ t, execAll [.kupdate abc 1 2, .kupdate abc 2 2, .krdlane 0] abcState = .next t ∧ t.halted = false :=
  ⟨abcState_inv, abcState_holds_abc, by decide, _, rfl, by decide +kernel⟩

theorem witness_FreshObjectHoldsTheEmptyStream :
    (abcState.halted = false ∧ ValidOutlen 99 ∧ ∃ t, exec (.kinit 99) abcState = .next t) ∧
    (∃ t, exec .kreset abcState = .next t) ∧
    (hostAssertReset haltedState).resetIn = true ∧ ∃ t, step (hostAssertReset haltedState) = .next t :=
  ⟨⟨rfl, .inl (by decide), _, rfl⟩, ⟨_, rfl⟩, rfl, _, rfl⟩

theorem witness_OneShotAgreesWithIncremental :
    cachedState.Inv ∧ cachedState.halted = false ∧ OneShotOutlen 28 ∧
    (∀ i ∈ [Instr.kupdate abc 0 3, .kupdate abc 0 (-1)], ∃ data off len, i = .kupdate data off len) ∧
    ∃ a b c d, exec (.kinit 28) cachedState = .next a ∧
      execAll [.kupdate abc 0 3, .kupdate abc 0 (-1)] a = .next b ∧ exec .kdigest b = .next c ∧
      exec (.khash 28 ([Instr.kupdate abc 0 3, .kupdate abc 0 (-1)].map streamBytes).flatten) cachedState = .next d :=
  ⟨cachedState_inv, rfl, .inl (by decide), by simp, _, _, _, _, rfl, rfl, rfl, rfl⟩

/-- A word of each row, with the largest immediate where there is one and with whole payloads; and a decoded command. -/
theorem witness_EveryRowOfTheOpcodeMapDecodes :
    (0x0100FFFF : Word) &&& 0xFFFF0000 = 0x01000000 ∧ (0x02000000 : Word) &&& 0xFFFFFFFF = 0x02000000 ∧
    ((0x03000000 : Word) &&& 0xFFFFFFFF = 0x03000000 ∧ ((3 : Word).toNat + 3) / 4 ≤ ([0x00636261] : List Word).length) ∧
    (0x04000000 : Word) &&& 0xFFFFFFFF = 0x04000000 ∧
    ((0x0500FFFF : Word) &&& 0xFFFF0000 = 0x05000000 ∧ ((0 : Word).toNat + 3) / 4 ≤ ([] : List Word).length) ∧
    (0x06000000 : Word) &&& 0xFFFFFFFF = 0x06000000 ∧ (0x0700FFFF : Word) &&& 0xFFFF0000 = 0x07000000 ∧
    (0x08000000 : Word) &&& 0xFFFFFFFF = 0x08000000 ∧
    decode (0x07000018 :: [5]) = .command (.krdlane 24) 1 := by decide

/-- A KUPDATE and a KRESET of a running object that holds `"abc"`, and a KPERMUTE that a reset overtakes. -/
theorem witness_EveryStepKeepsTheStream :
    (sent abcPacket abcState).Inv ∧ (sent abcPacket abcState).HoldsStream abc ∧
    (∃ t, step (sent abcPacket abcState) = .next t) ∧ (∃ t, step (sent [0x02000000] abcState) = .next t) ∧
    (∀ len, decode (sent abcPacket abcState).input ≠ .command .kpermute len) ∧
    decode (hostAssertReset (sent [0x06000000] abcState)).input = .command .kpermute 1 ∧
    (hostAssertReset (sent [0x06000000] abcState)).resetIn = true ∧
    ∃ t, step (hostAssertReset (sent [0x06000000] abcState)) = .next t :=
  ⟨{ abcState_inv with }, abcState_holds_abc, ⟨_, rfl⟩, ⟨_, rfl⟩, fun len h => by
    have d : decode abcPacket = .command (.kupdate abc 0 3) 5 := by decide
    exact absurd (d.symm.trans h) (by simp), by decide, rfl, _, rfl⟩

end Sys2Proof.Tests
end

section
namespace Sys2Proof.Machine

/-- The bits that wrap around: the low `n mod 64` bits of the result are the top bits of `v` (R10). -/
theorem getLsbD_rotl64_of_lt (v : Lane) {n i : Nat} (wraps : i < n % 64) :
    (rotl64 v n).getLsbD i = v.getLsbD (64 - n % 64 + i) := by
  simp only [rotl64, BitVec.getLsbD_rotateLeft, wraps, decide_true, cond_true]

/-- The bits that move up by `n mod 64` without wrapping (R10). -/
theorem getLsbD_rotl64_of_ge (v : Lane) {n i : Nat} (hi : i < 64) (stays : n % 64 ≤ i) :
    (rotl64 v n).getLsbD i = v.getLsbD (i - n % 64) := by
  simp only [rotl64, BitVec.getLsbD_rotateLeft, Nat.not_lt.mpr stays, hi, decide_true, decide_false, cond_false,
    Bool.true_and]

/-- Settles O41: the source index `i + 64 - n mod 64` is below 64 exactly for the bits that wrap, and loses 64 else. -/
theorem rotationIsCircular : Obligations.RotationIsCircular := by
  unfold Obligations.RotationIsCircular
  intro v n i hi
  obtain wraps | stays := Nat.lt_or_ge i (n % 64)
  · have source : (i + 64 - n % 64) % 64 = 64 - n % 64 + i := by omega
    rw [getLsbD_rotl64_of_lt v wraps, source]
  · have source : (i + 64 - n % 64) % 64 = i - n % 64 := by omega
    rw [getLsbD_rotl64_of_ge v hi stays, source]

end Sys2Proof.Machine
end

section
/-! What a step can do to the object, and the invariants between commands (10_state.md R23–R30, R36). -/

namespace Sys2Proof.Machine

variable {s t u : State} {i : Instr} {p : List Word}

/-! ### The object: what responding, taking an error and moving `csp` leave as it is -/

theorem SameObject.trans (h : SameObject s t) (k : SameObject t u) : SameObject s u := by
  obtain ⟨h1, h2, h3, h4, h5, h6, h7⟩ := h
  obtain ⟨k1, k2, k3, k4, k5, k6, k7⟩ := k
  exact ⟨k1.trans h1, k2.trans h2, k3.trans h3, k4.trans h4, k5.trans h5, k6.trans h6, k7.trans h7⟩

theorem sameObject_respond (code : ResultCode) (p : List Word) (s : State) : SameObject s (respond code p s) := by
  simp [SameObject]

theorem sameObject_complete (p : List Word) (s : State) : SameObject s (complete p s) := by simp [SameObject]

theorem sameObject_raise (e : ResultCode) (s : State) : SameObject s (raise e s) := by simp [SameObject]

theorem sameObject_advance (len : Nat) (s : State) : SameObject s (advance len s) := by simp [SameObject]

/-! ### Illegal packets and hardware reset -/

/-- The response to an illegal packet is one raised error (R80, R206). -/
theorem illegalCommand_eq_raise (s : State) :
    illegalCommand s = raise (if s.halted then .halted else .illegalCommand) s := by
  cases h : s.halted with
  | true => exact unlessHalted_halted _ h
  | false => exact unlessHalted_running _ h

theorem illegalCommand_lastErr (s : State) :
    (illegalCommand s).lastErr = if s.halted then s.lastErr else .illegalCommand := by
  rw [illegalCommand_eq_raise, raise_lastErr]
  cases s.halted <;> rfl

theorem sameObject_illegalCommand (s : State) : SameObject s (illegalCommand s) :=
  illegalCommand_eq_raise s ▸ sameObject_raise _ s

/-- Asserted reset wins over every packet (R212). -/
theorem step_reset (hr : s.resetIn = true) (h : step s = .next t) : t = hardwareReset s := by
  obtain ⟨_, rfl⟩ | ⟨hn, _⟩ | ⟨hn, _⟩ := step_cases h
  · rfl
  · simp [hr] at hn
  · simp [hr] at hn

/-! ### What a step can do to the object -/

/-- What a running block answers without touching the object: KSTATUS, and a command that its own checks refuse. -/
def Untouching (i : Instr) : Prop := i = .kstatus ∨ commandError i ≠ none

/-- A step resets the block, or keeps the object because the block is halted, the packet is illegal or its command does
not touch the object, or has the effect of a command that a running block accepts. -/
theorem step_object_cases (h : step s = .next t) :
    (s.resetIn = true ∧ t = hardwareReset s) ∨
    (s.resetIn = false ∧ SameObject s t ∧
      (s.halted = true ∨ (∃ why len, decode s.input = .illegal why len) ∨
        ∃ i len, decode s.input = .command i len ∧ Untouching i)) ∨
    (s.resetIn = false ∧ s.halted = false ∧
      ∃ i len u p, decode s.input = .command i len ∧ Effect i s u p ∧ SameObject u t) := by
  obtain hreset | ⟨hr, _, why, len, hd, rfl⟩ | ⟨hr, _, i, len, v, hd, hv, rfl⟩ := step_cases h
  · exact .inl hreset
  · exact .inr (.inl ⟨hr, (sameObject_illegalCommand s).trans (sameObject_advance len _), .inr (.inl ⟨why, len, hd⟩)⟩)
  · obtain ⟨hh, _, rfl⟩ | ⟨rfl, rfl⟩ | ⟨_, _, e, he, rfl⟩ | ⟨hh, _, _, u, p, hu, rfl⟩ := exec_cases hv
    · exact .inr (.inl ⟨hr, (sameObject_raise _ s).trans (sameObject_advance len _), .inl hh⟩)
    · exact .inr (.inl ⟨hr, (sameObject_respond _ _ s).trans (sameObject_advance len _),
        .inr (.inr ⟨_, len, hd, .inl rfl⟩)⟩)
    · exact .inr (.inl ⟨hr, (sameObject_raise e s).trans (sameObject_advance len _),
        .inr (.inr ⟨i, len, hd, .inr (by simp [he])⟩)⟩)
    · exact .inr (.inr ⟨hr, hh, i, len, u, p, hd, hu, (sameObject_complete p u).trans (sameObject_advance len _)⟩)

/-- While halted, every command but KSTATUS is rejected before its own checks (R206, R207). -/
theorem exec_halted (hh : s.halted = true) (hi : i ≠ .kstatus) : exec i s = .next (raise .halted s) := by
  obtain ⟨t, ht⟩ := exec_answers_next i s
  obtain ⟨_, _, rfl⟩ | ⟨hstatus, _⟩ | ⟨hrun, _⟩ | ⟨hrun, _⟩ := exec_cases ht
  · exact ht
  · exact absurd hstatus hi
  · simp [hh] at hrun
  · simp [hh] at hrun

/-- The state after a step of a halted block: it answers, and nothing but the two streams moves (R206). -/
theorem step_of_halted (hh : s.halted = true) (hr : s.resetIn = false) (h : step s = .next t) :
    ∃ len, t = advance len (raise .halted s) ∨ t = advance len (respond .ok [statusWord s] s) := by
  obtain ⟨hreset, _⟩ | ⟨_, _, _, len, _, rfl⟩ | ⟨_, _, _, len, _, _, hv, rfl⟩ := step_cases h
  · simp [hr] at hreset
  · exact ⟨len, .inl (by rw [illegalCommand_eq_raise, hh]; rfl)⟩
  · obtain ⟨_, _, rfl⟩ | ⟨_, rfl⟩ | ⟨hn, _⟩ | ⟨hn, _⟩ := exec_cases hv
    · exact ⟨len, .inl rfl⟩
    · exact ⟨len, .inr rfl⟩
    · simp [hh] at hn
    · simp [hh] at hn

/-! ### The invariants (R23–R30) -/

/-- The part of the invariants about `HALTED` and `LAST_ERR` (R27, R28, R205, R206). -/
def HaltRecorded (s : State) : Prop :=
  (s.halted = true ↔ s.lastErr = .internalInvariantViolation) ∧ s.lastErr ≠ .halted

theorem State.Inv.haltRecorded (hs : s.Inv) : HaltRecorded s := ⟨hs.halted_iff, hs.lastErr_ne⟩

/-- The invariants are about the object, and about `HALTED` and `LAST_ERR`. -/
theorem State.Inv.of_sameObject (hs : s.Inv) (ho : SameObject s t) (ht : HaltRecorded t) : t.Inv := by
  obtain ⟨hlanes, houtlen, hrate, hrem, hremLen, hfsm, hdigest⟩ := ho
  exact
    { outlen_valid := by rw [houtlen]; exact hs.outlen_valid
      rate_eq := by rw [hrate, houtlen]; exact hs.rate_eq
      rem_size := by rw [hrem, hrate]; exact hs.rem_size
      remLen_lt := by rw [hremLen, hrate]; exact hs.remLen_lt
      rem_tail := by rw [hrem, hremLen, hrate]; exact hs.rem_tail
      fresh := by rw [hfsm, hlanes, hremLen, hdigest]; exact hs.fresh
      cache_valid := by rw [hdigest, hfsm]; exact hs.cache_valid
      cache_value := by rw [hdigest, hlanes, hrem, hremLen, hrate, houtlen]; exact hs.cache_value
      halted_iff := ht.1
      lastErr_ne := ht.2 }

/-- A running block that records a code records the halt with it (R205). -/
theorem haltRecorded_raise {e : ResultCode} (hh : s.halted = false) (he : e ≠ .halted) : HaltRecorded (raise e s) := by
  simp [HaltRecorded, raise_halted, raise_lastErr, hh, he]

theorem haltRecorded_complete (p : List Word) (hh : s.halted = false) : HaltRecorded (complete p s) := by
  simp [HaltRecorded, hh]

/-- No check of a command answers `OK` or `Halted`. -/
theorem commandError_ne {e : ResultCode} (h : commandError i = some e) : e ≠ .ok ∧ e ≠ .halted := by
  obtain rfl | rfl | rfl := commandError_cases h <;> decide

theorem exec_keeps_haltRecorded (hs : HaltRecorded s) (h : exec i s = .next t) : HaltRecorded t := by
  obtain ⟨_, _, rfl⟩ | ⟨_, rfl⟩ | ⟨hh, _, e, he, rfl⟩ | ⟨hh, _, _, u, p, hu, rfl⟩ := exec_cases h
  · exact hs
  · exact hs
  · exact haltRecorded_raise hh (commandError_ne he).2
  · exact haltRecorded_complete p (hu.frame.2.1.trans hh)

theorem illegalCommand_keeps_haltRecorded (hs : HaltRecorded s) : HaltRecorded (illegalCommand s) := by
  rw [illegalCommand_eq_raise]
  cases hh : s.halted with
  | true => exact hs
  | false => exact haltRecorded_raise hh (by decide)

theorem step_keeps_haltRecorded (hs : HaltRecorded s) (h : step s = .next t) : HaltRecorded t := by
  obtain ⟨_, rfl⟩ | ⟨_, _, _, _, _, rfl⟩ | ⟨_, _, _, _, u, _, hu, rfl⟩ := step_cases h
  · simp [HaltRecorded]
  · exact illegalCommand_keeps_haltRecorded hs
  · exact (exec_keeps_haltRecorded hs hu : HaltRecorded u)

/-- The cleared object of a valid configuration meets the invariants (R160, R168). -/
theorem clearObject_inv (hv : ValidOutlen s.outlen) (hr : (s.rate : Int) = rateOf s.outlen) (hh : HaltRecorded s) :
    (clearObject s).Inv where
  outlen_valid := hv
  rate_eq := hr
  rem_size := by simp
  remLen_lt := by
    obtain ⟨_, hpos, _⟩ := rateOf_valid hv
    simp only [clearObject_remLen, clearObject_rate]; omega
  rem_tail := by simp
  fresh := by simp
  cache_valid := by simp
  cache_value := by simp
  halted_iff := hh.1
  lastErr_ne := hh.2

/-- Reset leaves the cleared object of the default configuration (R36). -/
theorem reset_eq_clearObject : State.reset = clearObject State.reset := rfl

theorem reset_inv : State.reset.Inv :=
  reset_eq_clearObject ▸ clearObject_inv (.inl (by decide)) (by decide) (by unfold HaltRecorded; decide)

theorem hardwareReset_inv (s : State) : (hardwareReset s).Inv :=
  reset_inv.of_sameObject ⟨rfl, rfl, rfl, rfl, rfl, rfl, rfl⟩ reset_inv.haltRecorded

/-! ### What an update leaves in the object (R164–R167) -/

theorem absorbUpdate_lanes (hs : s.Inv) (d : List Byte) :
    (absorbUpdate d s).lanes = absorbBlocks s.lanes (splitBlocks s.rate (pendingBytes s ++ d)).1 s.rate := by
  rw [absorbUpdate_eq d s hs.rem_size hs.remLen_lt hs.rem_tail]

theorem absorbUpdate_remLen (hs : s.Inv) (d : List Byte) :
    (absorbUpdate d s).remLen = (splitBlocks s.rate (pendingBytes s ++ d)).2.length := by
  rw [absorbUpdate_eq d s hs.rem_size hs.remLen_lt hs.rem_tail]

theorem pendingBytes_absorbUpdate (hs : s.Inv) (d : List Byte) :
    pendingBytes (absorbUpdate d s) = (splitBlocks s.rate (pendingBytes s ++ d)).2 := by
  rw [absorbUpdate_eq d s hs.rem_size hs.remLen_lt hs.rem_tail]
  exact List.take_left

theorem absorbUpdate_inv (hs : s.Inv) (d : List Byte) : (absorbUpdate d s).Inv := by
  have hlt := hs.remLen_lt
  obtain ⟨_, _, hshort⟩ := splitBlocks_spec (show 0 < s.rate by omega) (pendingBytes s ++ d)
  rw [absorbUpdate_eq d s hs.rem_size hlt hs.rem_tail]
  exact
    { hs with
      rem_size := by simp only [List.length_append, zeroBytes_length]; omega
      remLen_lt := hshort
      rem_tail := List.drop_left
      fresh := nofun
      cache_valid := by simp
      cache_value := nofun }

/-! ### Every effect keeps the invariants -/

/-- A valid cache is left as it is (R174). -/
theorem finalizeDigest_of_some {d : List Byte} (h : s.digest = some d) : finalizeDigest s = s := by
  simp [finalizeDigest, h]

/-- An invalid cache is filled (R172). -/
theorem finalizeDigest_of_none (h : s.digest = none) :
    finalizeDigest s = { s with digest := some (computeDigest s), fsm := .finalized } := by
  simp [finalizeDigest, h]

theorem finalizeDigest_inv (hs : s.Inv) : (finalizeDigest s).Inv := by
  cases h : s.digest with
  | some d => rw [finalizeDigest_of_some h]; exact hs
  | none =>
    rw [finalizeDigest_of_none h]
    exact
      { hs with
        fresh := nofun
        cache_valid := by simp
        cache_value := fun d hd => (Option.some.inj hd).symm }

theorem permuted_inv (hs : s.Inv) :
    State.Inv { s with lanes := keccakF s.lanes, fsm := .accumulating, digest := none } :=
  { hs with
    fresh := nofun
    cache_valid := by simp
    cache_value := nofun }

theorem Effect.keeps_inv (hs : s.Inv) (h : Effect i s u p) : u.Inv := by
  cases h with
  | kinit hn =>
    obtain hv := kinitError_eq_none.mp hn
    exact clearObject_inv hv (rateOf_valid hv).1 hs.haltRecorded
  | kreset => exact clearObject_inv hs.outlen_valid hs.rate_eq hs.haltRecorded
  | kupdateEmpty => exact hs
  | kupdate => exact absorbUpdate_inv hs _
  | kdigest => exact finalizeDigest_inv hs
  | khash => exact hs
  | kpermute => exact permuted_inv hs
  | krdlane => exact hs

/-- Settles O15: each effect keeps the invariants, and what a step does besides is not of the object. -/
theorem everyStepKeepsTheInvariants : Obligations.EveryStepKeepsTheInvariants := by
  unfold Obligations.EveryStepKeepsTheInvariants
  intro s t hs h
  have ht := step_keeps_haltRecorded hs.haltRecorded h
  obtain ⟨_, rfl⟩ | ⟨_, hkept, _⟩ | ⟨_, _, i, len, u, p, _, heffect, hsame⟩ := step_object_cases h
  · exact hardwareReset_inv s
  · exact hs.of_sameObject hkept ht
  · exact (heffect.keeps_inv hs).of_sameObject hsame ht

/-- Settles O14: reset leaves a cleared object of a valid configuration. -/
theorem resetMeetsTheInvariants : Obligations.ResetMeetsTheInvariants := reset_inv

/-- Settles O13: the reset values are those of `State.reset`, and its status word is computed from them. -/
theorem resetValuesAndStatusWord : Obligations.ResetValuesAndStatusWord :=
  ⟨rfl, rfl, rfl, rfl, rfl, rfl, rfl, rfl, rfl, rfl, by decide⟩

end Sys2Proof.Machine
end

section
/-! The lanes and the stream of the object after a step (10_state.md R21, R30; 42_incremental.md R170). -/

namespace Sys2Proof.Machine

variable {s t u : State} {i : Instr} {p : List Word} {M : List Byte}

/-! ### The value of an observable of the object after a step -/

section
variable {α : Type} (kept cleared permuted : α) (updated : List Byte → α)

/-- An observable of the object after a command of a running block: `cleared` by an accepted KINIT and by KRESET, `updated`
by the window of an accepted KUPDATE, `permuted` by KPERMUTE, and `kept` by everything else. -/
def afterCommand : Instr → α
  | .kinit n => if (1 ≤ n ∧ n ≤ 99) ∨ n = 200 then cleared else kept
  | .kreset => cleared
  | .kupdate data off len =>
    if 0 ≤ len ∧ 0 ≤ off ∧ off + len ≤ data.length then updated (payloadWindow data off len) else kept
  | .kdigest => kept
  | .khash _ _ => kept
  | .kpermute => permuted
  | .krdlane _ => kept
  | .kstatus => kept

/-- The same after a step: hardware reset clears, and a halted block and an illegal packet keep. -/
def afterStep (s : State) : α :=
  if s.resetIn then cleared
  else if s.halted then kept
  else
    match decode s.input with
    | .incomplete => kept
    | .illegal _ _ => kept
    | .command i _ => afterCommand kept cleared permuted updated i

theorem afterCommand_of_untouching (h : Untouching i) : afterCommand kept cleared permuted updated i = kept := by
  obtain rfl | h := h
  · rfl
  · cases i with
    | kinit n => exact if_neg (mt kinitError_eq_none.mpr h)
    | kupdate data off len => exact if_neg (mt windowError_eq_none.mpr h)
    | kreset => exact absurd rfl h
    | kpermute => exact absurd rfl h
    | kdigest => rfl
    | khash => rfl
    | krdlane => rfl
    | kstatus => rfl

theorem afterCommand_kinit {n : Nat} (h : kinitError n = none) :
    afterCommand kept cleared permuted updated (.kinit n) = cleared := if_pos (kinitError_eq_none.mp h)

theorem afterCommand_kupdate {data : List Byte} {off len : Int} (h : windowError data.length off len = none) :
    afterCommand kept cleared permuted updated (.kupdate data off len) = updated (payloadWindow data off len) :=
  if_pos (windowError_eq_none.mp h)

theorem afterStep_of_reset (hr : s.resetIn = true) : afterStep kept cleared permuted updated s = cleared := if_pos hr

theorem afterStep_of_command {len : Nat} (hr : s.resetIn = false) (hh : s.halted = false)
    (hd : decode s.input = .command i len) :
    afterStep kept cleared permuted updated s = afterCommand kept cleared permuted updated i := by
  simp [afterStep, hr, hh, hd]

/-- Where `step_object_cases` says that the object is kept. -/
theorem afterStep_of_kept (hr : s.resetIn = false)
    (h : s.halted = true ∨ (∃ why len, decode s.input = .illegal why len) ∨
      ∃ i len, decode s.input = .command i len ∧ Untouching i) :
    afterStep kept cleared permuted updated s = kept := by
  obtain hh | ⟨why, len, hd⟩ | ⟨i, len, hd, hi⟩ := h
  · simp [afterStep, hr, hh]
  · simp [afterStep, hr, hd]
  · simp [afterStep, hr, hd, afterCommand_of_untouching kept cleared permuted updated hi]

end

/-! ### The lanes (R21) -/

theorem finalizeDigest_lanes (s : State) : (finalizeDigest s).lanes = s.lanes := by
  obtain ⟨_, _, _, hlanes, _⟩ := finalizeDigest_frame s
  exact hlanes

/-- A window of no bytes completes no block. -/
theorem splitBlocks_pendingBytes (hs : s.Inv) : splitBlocks s.rate (pendingBytes s) = ([], pendingBytes s) :=
  splitBlocks_short ((List.length_take_le ..).trans_lt hs.remLen_lt)

theorem payloadWindow_zero (data : List Byte) (off : Int) : payloadWindow data off 0 = [] := rfl

theorem Effect.lanes_eq (hs : s.Inv) (h : Effect i s u p) :
    u.lanes = afterCommand s.lanes zeroLanes (keccakF s.lanes)
      (fun d => absorbBlocks s.lanes (splitBlocks s.rate (pendingBytes s ++ d)).1 s.rate) i := by
  cases h with
  | kinit hn => rw [afterCommand_kinit _ _ _ _ hn]; rfl
  | kreset => rfl
  | kupdateEmpty hw =>
    rw [afterCommand_kupdate _ _ _ _ hw, payloadWindow_zero, List.append_nil,
      splitBlocks_pendingBytes hs, absorbBlocks_nil]
  | kupdate hw => rw [afterCommand_kupdate _ _ _ _ hw, absorbUpdate_lanes hs]
  | kdigest => exact finalizeDigest_lanes s
  | khash => rfl
  | kpermute => rfl
  | krdlane => rfl

/-- Settles O16: the statement's table is `afterStep` for the lanes. -/
theorem lanesChangeOnlyByAbsorbingPermutingZeroing : Obligations.LanesChangeOnlyByAbsorbingPermutingZeroing := by
  unfold Obligations.LanesChangeOnlyByAbsorbingPermutingZeroing
  intro s t hs h
  change t.lanes = afterStep s.lanes zeroLanes (keccakF s.lanes)
    (fun d => absorbBlocks s.lanes (splitBlocks s.rate (pendingBytes s ++ d)).1 s.rate) s
  obtain ⟨hr, rfl⟩ | ⟨hr, ⟨hlanes, _⟩, hwhy⟩ | ⟨hr, hh, i, len, u, p, hd, heffect, hlanes, _⟩ := step_object_cases h
  · rw [afterStep_of_reset _ _ _ _ hr, hardwareReset_lanes]
  · rw [afterStep_of_kept _ _ _ _ hr hwhy, hlanes]
  · rw [afterStep_of_command _ _ _ _ hr hh hd, hlanes, heffect.lanes_eq hs]

/-! ### The stream that the object holds (R30, R170) -/

/-- The stream is read off the lanes, the rate and the remainder. -/
theorem State.HoldsStream.congr (hM : s.HoldsStream M) (hlanes : t.lanes = s.lanes) (hrate : t.rate = s.rate)
    (hrem : t.rem = s.rem) (hremLen : t.remLen = s.remLen) : t.HoldsStream M := by
  simp only [State.HoldsStream, pendingBytes, hlanes, hrate, hrem, hremLen] at hM ⊢
  exact hM

theorem State.HoldsStream.of_sameObject (hM : s.HoldsStream M) (ho : SameObject s t) : t.HoldsStream M := by
  obtain ⟨hlanes, _, hrate, hrem, hremLen, _, _⟩ := ho
  exact hM.congr hlanes hrate hrem hremLen

/-- Zero lanes and an empty remainder hold the empty stream. -/
theorem holdsStream_nil (hlanes : s.lanes = zeroLanes) (hremLen : s.remLen = 0) : s.HoldsStream [] :=
  ⟨hlanes, by rw [pendingBytes, hremLen]; rfl, hremLen⟩

/-- An update appends its bytes to the stream (R170, R171). -/
theorem absorbUpdate_holdsStream (hs : s.Inv) (hM : s.HoldsStream M) (d : List Byte) :
    (absorbUpdate d s).HoldsStream (M ++ d) := by
  have hrate : 0 < s.rate := Nat.zero_lt_of_lt hs.remLen_lt
  obtain ⟨hlanes, hpending, _⟩ := hM
  obtain ⟨_, _, hkeep, _⟩ := absorbUpdate_frame d s
  rw [State.HoldsStream, hkeep, splitBlocks_append hrate, absorbBlocks_append, ← hlanes, ← hpending]
  exact ⟨absorbUpdate_lanes hs d, pendingBytes_absorbUpdate hs d, absorbUpdate_remLen hs d⟩

theorem finalizeDigest_holdsStream (hM : s.HoldsStream M) : (finalizeDigest s).HoldsStream M := by
  obtain ⟨_, _, hrate, hlanes, hrem, hremLen, _⟩ := finalizeDigest_frame s
  exact hM.congr hlanes hrate hrem hremLen

theorem Effect.holdsStream (hs : s.Inv) (hM : s.HoldsStream M) (hi : i ≠ .kpermute) (h : Effect i s u p) :
    u.HoldsStream (afterCommand M [] M (M ++ ·) i) := by
  cases h with
  | kinit hn =>
    rw [afterCommand_kinit _ _ _ _ hn]
    exact holdsStream_nil rfl rfl
  | kreset => exact holdsStream_nil rfl rfl
  | kupdateEmpty hw =>
    rw [afterCommand_kupdate _ _ _ _ hw, payloadWindow_zero, List.append_nil]
    exact hM
  | kupdate hw =>
    rw [afterCommand_kupdate _ _ _ _ hw]
    exact absorbUpdate_holdsStream hs hM _
  | kdigest => exact finalizeDigest_holdsStream hM
  | khash => exact hM
  | kpermute => exact absurd rfl hi
  | krdlane => exact hM

/-- Settles O54: the statement's table is `afterStep` for the stream; a KPERMUTE that runs has no row in it. -/
theorem everyStepKeepsTheStream : Obligations.EveryStepKeepsTheStream := by
  unfold Obligations.EveryStepKeepsTheStream
  intro s t M hs hM h hperm
  change t.HoldsStream (afterStep M [] M (M ++ ·) s)
  obtain ⟨hr, rfl⟩ | ⟨hr, hkept, hwhy⟩ | ⟨hr, hh, i, len, u, p, hd, heffect, hsame⟩ := step_object_cases h
  · rw [afterStep_of_reset _ _ _ _ hr]
    exact holdsStream_nil rfl rfl
  · rw [afterStep_of_kept _ _ _ _ hr hwhy]
    exact hM.of_sameObject hkept
  · have hi : i ≠ .kpermute := by
      rintro rfl
      simpa [hr, hh] using hperm len hd
    rw [afterStep_of_command _ _ _ _ hr hh hd]
    exact (heffect.holdsStream hs hM hi).of_sameObject hsame

end Sys2Proof.Machine
end

section
/-! The configuration, `FSM`, `LAST_ERR`, the halt, the digest cache and the status word, field by field (10_state.md). -/

namespace Sys2Proof.Machine

variable {s t u : State} {i : Instr} {p : List Word} {code : ResultCode} {out : List Word}

/-! ### The configuration (R23, R24) -/

/-- Only KINIT has an effect on `OUTLEN` and `RATE`. -/
theorem Effect.configuration (h : Effect i s u p) :
    (u.outlen = s.outlen ∧ u.rate = s.rate) ∨
    ∃ n, i = .kinit n ∧ ValidOutlen n ∧ u.outlen = n ∧ (u.rate : Int) = rateOf n := by
  cases h with
  | @kinit n _ hn =>
    obtain hv := kinitError_eq_none.mp hn
    exact .inr ⟨n, rfl, hv, rfl, (rateOf_valid hv).1⟩
  | @kupdate data off len =>
    obtain ⟨_, houtlen, hrate, _⟩ := absorbUpdate_frame (payloadWindow data off len) s
    exact .inl ⟨houtlen, hrate⟩
  | kdigest =>
    obtain ⟨_, houtlen, hrate, _⟩ := finalizeDigest_frame s
    exact .inl ⟨houtlen, hrate⟩
  | kreset => exact .inl ⟨rfl, rfl⟩
  | kupdateEmpty => exact .inl ⟨rfl, rfl⟩
  | khash => exact .inl ⟨rfl, rfl⟩
  | kpermute => exact .inl ⟨rfl, rfl⟩
  | krdlane => exact .inl ⟨rfl, rfl⟩

/-- Settles O17: what does not keep the object is an effect, and KINIT's is the only one on the configuration. -/
theorem configurationWrittenOnlyByKinitAndReset : Obligations.ConfigurationWrittenOnlyByKinitAndReset := by
  unfold Obligations.ConfigurationWrittenOnlyByKinitAndReset
  intro s t h hnoReset
  obtain ⟨hr, _⟩ | ⟨_, ⟨_, houtlen, hrate, _⟩, _⟩ | ⟨_, hh, i, len, u, p, hd, heffect, _, houtlen, hrate, _⟩ :=
    step_object_cases h
  · simp [hnoReset] at hr
  · exact .inl ⟨houtlen, hrate⟩
  · rw [houtlen, hrate]
    obtain hkept | ⟨n, rfl, hv, hn, hnrate⟩ := heffect.configuration
    · exact .inl hkept
    · exact .inr ⟨n, len, hd, hh, hv, hn, hnrate⟩

/-! ### A command by the code of its response (R78, R200) -/

theorem codeWord_injective {c d : ResultCode} (h : BitVec.ofNat 32 (codeNumber c) = BitVec.ofNat 32 (codeNumber d)) :
    c = d := by
  revert h; cases c <;> cases d <;> decide

/-- A response determines its code. -/
theorem code_eq_of_append_eq {ws : List Word} {c d : ResultCode} {p q : List Word}
    (h : ws ++ responseWords c p = ws ++ responseWords d q) : c = d := by
  obtain ⟨hcode, _⟩ := List.cons.inj (List.append_cancel_left h)
  exact codeWord_injective hcode

/-- `exec_cases` with the code of the response that each case appends. -/
theorem exec_code_cases (h : exec i s = .next t) (hout : t.output = s.output ++ responseWords code out) :
    (s.halted = true ∧ i ≠ .kstatus ∧ code = .halted ∧ t = raise .halted s) ∨
    (i = .kstatus ∧ code = .ok ∧ t = respond .ok [statusWord s] s) ∨
    (s.halted = false ∧ i ≠ .kstatus ∧ commandError i = some code ∧ t = raise code s) ∨
    (s.halted = false ∧ i ≠ .kstatus ∧ code = .ok ∧ ∃ u p, Effect i s u p ∧ t = complete p u) := by
  obtain ⟨hh, hi, rfl⟩ | ⟨rfl, rfl⟩ | ⟨hh, hi, e, he, rfl⟩ | ⟨hh, hi, _, u, p, hu, rfl⟩ := exec_cases h
  · have hcode : ResultCode.halted = code := code_eq_of_append_eq hout
    exact .inl ⟨hh, hi, hcode.symm, rfl⟩
  · have hcode : ResultCode.ok = code := code_eq_of_append_eq hout
    exact .inr (.inl ⟨rfl, hcode.symm, rfl⟩)
  · have hcode : e = code := code_eq_of_append_eq ((raise_output e s).symm.trans hout)
    exact .inr (.inr (.inl ⟨hh, hi, hcode ▸ he, hcode ▸ rfl⟩))
  · obtain ⟨_, _, _, hkeep⟩ := hu.frame
    have hcode : ResultCode.ok = code := code_eq_of_append_eq (hkeep ▸ hout)
    exact .inr (.inr (.inr ⟨hh, hi, hcode.symm, u, p, hu, rfl⟩))

/-! ### `FSM` (R26) -/

/-- KDIGEST leaves `FINALIZED`, by the cache's own invariant where the cache was valid (R29). -/
theorem finalizeDigest_fsm (hs : s.Inv) : (finalizeDigest s).fsm = .finalized := by
  cases h : s.digest with
  | some d => rw [finalizeDigest_of_some h]; exact hs.cache_valid.mp (by simp [h])
  | none => rw [finalizeDigest_of_none h]

/-- `FSM` after an accepted command (R26). -/
def fsmAfter (s : State) : Instr → Fsm
  | .kinit _ => .fresh
  | .kreset => .fresh
  | .kupdate _ _ len => if len = 0 then s.fsm else .accumulating
  | .kdigest => .finalized
  | .khash _ _ => s.fsm
  | .kpermute => .accumulating
  | .krdlane _ => s.fsm
  | .kstatus => s.fsm

theorem Effect.fsm_eq (hs : s.Inv) (h : Effect i s u p) : u.fsm = fsmAfter s i := by
  cases h with
  | kinit => rfl
  | kreset => rfl
  | kupdateEmpty => rfl
  | kupdate _ hl => exact (if_neg hl).symm
  | kdigest => exact finalizeDigest_fsm hs
  | khash => rfl
  | kpermute => rfl
  | krdlane => rfl

theorem exec_fsm (hs : s.Inv) (h : exec i s = .next t) (hout : t.output = s.output ++ responseWords code out) :
    t.fsm = if code ≠ .ok then s.fsm else fsmAfter s i := by
  obtain ⟨_, _, rfl, rfl⟩ | ⟨rfl, rfl, rfl⟩ | ⟨_, _, he, rfl⟩ | ⟨_, _, rfl, u, p, hu, rfl⟩ :=
    exec_code_cases h hout
  · rfl
  · rfl
  · rw [if_pos (commandError_ne he).1, raise_fsm]
  · rw [if_neg (not_not_intro rfl), complete_fsm, hu.fsm_eq hs]

/-- Settles O18: the response code tells which case of `exec` answered. -/
theorem fsmTransitionTable : Obligations.FsmTransitionTable := by
  unfold Obligations.FsmTransitionTable
  refine ⟨fun s t hr h => ?_, fun i s t code out hs h hout => exec_fsm hs h hout, fun s t why len hr hd h => ?_⟩
  · rw [step_reset hr h, hardwareReset_fsm]
  · obtain ⟨_, _, _, _, _, hfsm, _⟩ := sameObject_illegalCommand s
    rw [step_illegal hr hd h, advance_fsm, hfsm]

/-! ### `LAST_ERR` and the halt (R27, R28) -/

theorem exec_lastErr (h : exec i s = .next t) (hout : t.output = s.output ++ responseWords code out) :
    t.lastErr = if s.halted = true ∨ i = .kstatus then s.lastErr else code := by
  obtain ⟨hh, _, rfl, rfl⟩ | ⟨rfl, rfl, rfl⟩ | ⟨hh, hi, he, rfl⟩ | ⟨hh, hi, rfl, u, p, _, rfl⟩ :=
    exec_code_cases h hout
  · rw [if_pos (.inl hh)]; rfl
  · rw [if_pos (.inr rfl)]; rfl
  · rw [raise_lastErr, if_neg (commandError_ne he).2, if_neg (by simp [hh, hi])]
  · rw [complete_lastErr, if_neg (by simp [hh, hi])]

/-- Settles O19: each case of `exec` records the code that it responds with, but for the halt gate and KSTATUS. -/
theorem lastErrRecordsTheResult : Obligations.LastErrRecordsTheResult := by
  unfold Obligations.LastErrRecordsTheResult
  refine ⟨fun i s t code out h hout => exec_lastErr h hout, fun s t why len hr hd h => ?_, fun s t hr h => ?_⟩
  · rw [step_illegal hr hd h, advance_lastErr, illegalCommand_lastErr]
  · rw [step_reset hr h, hardwareReset_lastErr]

/-- Settles O20: a halted block raises `Halted` or answers a status word, and neither changes a field of the object. -/
theorem onlyHardwareResetLeavesTheHalt : Obligations.OnlyHardwareResetLeavesTheHalt := by
  unfold Obligations.OnlyHardwareResetLeavesTheHalt
  intro s t hh hr h
  obtain ⟨len, rfl | rfl⟩ := step_of_halted hh hr h
  · exact ⟨hh, rfl, (sameObject_raise _ s).trans (sameObject_advance len _)⟩
  · exact ⟨hh, rfl, (sameObject_respond _ _ s).trans (sameObject_advance len _)⟩

/-! ### The digest cache (R29, R30, R174) -/

theorem computeDigest_length (s : State) : (computeDigest s).length = s.outlen := squeeze_length _ _

/-- Under the invariants KDIGEST answers the computed digest, whether it is cached or not. -/
theorem digestBytes_finalizeDigest (hs : ∀ d, s.digest = some d → d = computeDigest s) :
    digestBytes (finalizeDigest s) = computeDigest s := by
  have hcache : (finalizeDigest s).digest = some (computeDigest s) := by
    cases h : s.digest with
    | some d => rw [finalizeDigest_of_some h, h, hs d h]
    | none => rw [finalizeDigest_of_none h]
  obtain ⟨_, houtlen, _⟩ := finalizeDigest_frame s
  rw [digestBytes, hcache, houtlen, ← computeDigest_length s]
  exact List.take_length

theorem exec_kdigest_output (hh : s.halted = false) (hs : ∀ d, s.digest = some d → d = computeDigest s)
    (h : exec .kdigest s = .next t) : t.output = s.output ++ responseWords .ok (packBytes (computeDigest s)) := by
  rw [exec_kdigest_running hh] at h
  obtain ⟨_, _, _, _, _, _, _, _, houtput⟩ := finalizeDigest_frame s
  rw [← Host.Outcome.next.inj h, complete_output, digestBytes_finalizeDigest hs, houtput]

/-- The digest is computed from the lanes, the remainder and the configuration, never from the cache. -/
theorem computeDigest_without_cache (s : State) : computeDigest { s with digest := none } = computeDigest s := rfl

/-- Settles O31: a valid cache holds what KDIGEST computes without one. -/
theorem cacheIsNeverObservableInTheDigest : Obligations.CacheIsNeverObservableInTheDigest := by
  unfold Obligations.CacheIsNeverObservableInTheDigest
  intro s t u hs ht hu
  cases hh : s.halted with
  | true =>
    rw [exec_halted (i := .kdigest) hh nofun] at ht
    rw [exec_halted (s := { s with digest := none }) (i := .kdigest) hh nofun] at hu
    rw [← Host.Outcome.next.inj ht, ← Host.Outcome.next.inj hu, raise_output, raise_output]
  | false =>
    rw [exec_kdigest_output hh hs.cache_value ht, exec_kdigest_output (s := { s with digest := none }) hh nofun hu,
      computeDigest_without_cache]

/-! ### The status word (R33, R180) -/

/-- A field ORed in above the bits that are set so far is added to them. -/
theorem toNat_or_field {x : Word} {a : Nat} (hx : x.toNat = a) (v k : Nat) (ha : a < 2 ^ k)
    (hv : v * 2 ^ k < 2 ^ 32) :
    (x ||| BitVec.ofNat 32 v <<< k).toNat = a + v * 2 ^ k := by
  have hsmall : v < 2 ^ 32 := (Nat.le_mul_of_pos_right v (Nat.two_pow_pos k)).trans_lt hv
  rw [BitVec.toNat_or, BitVec.toNat_shiftLeft, BitVec.toNat_ofNat, Nat.mod_eq_of_lt hsmall, Nat.shiftLeft_eq,
    Nat.mod_eq_of_lt hv, hx, Nat.or_comm, Nat.mul_comm, ← Nat.two_pow_add_eq_or_of_lt ha, Nat.add_comm]

theorem codeNumber_lt (c : ResultCode) : codeNumber c < 6 := by cases c <;> decide

theorem fsmNumber_lt (f : Fsm) : fsmNumber f < 3 := by cases f <;> decide

/-- The status word is the sum of its fields when each fits its place (R33, R180). -/
theorem statusWord_toNat (hremLen : s.remLen < 2 ^ 8) (houtlen : s.outlen < 2 ^ 8) (hrate : s.rate < 2 ^ 8) :
    (statusWord s).toNat = fsmNumber s.fsm + (digestValid s).toNat * 2 ^ 2 + s.halted.toNat * 2 ^ 3 +
      codeNumber s.lastErr * 2 ^ 4 + s.remLen * 2 ^ 8 + s.outlen * 2 ^ 16 + s.rate * 2 ^ 24 := by
  have hfsm := fsmNumber_lt s.fsm
  have hvalid := Bool.toNat_le (digestValid s)
  have hhalted := Bool.toNat_le s.halted
  have hcode := codeNumber_lt s.lastErr
  have h0 : (BitVec.ofNat 32 (fsmNumber s.fsm)).toNat = fsmNumber s.fsm := by rw [BitVec.toNat_ofNat]; omega
  have h2 := toNat_or_field h0 (digestValid s).toNat 2 (by omega) (by omega)
  have h3 := toNat_or_field h2 s.halted.toNat 3 (by omega) (by omega)
  have h4 := toNat_or_field h3 (codeNumber s.lastErr) 4 (by omega) (by omega)
  have h8 := toNat_or_field h4 s.remLen 8 (by omega) (by omega)
  have h16 := toNat_or_field h8 s.outlen 16 (by omega) (by omega)
  exact toNat_or_field h16 s.rate 24 (by omega) (by omega)

theorem extractLsb'_toNat_eq_div_mod (w : Word) (lo n : Nat) :
    (w.extractLsb' lo n).toNat = w.toNat / 2 ^ lo % 2 ^ n := by
  rw [BitVec.extractLsb'_toNat, Nat.shiftRight_eq_div_pow]

theorem rateOf_eq (n : Nat) : rateOf n = if n = 200 then 136 else 200 - 2 * (n : Int) := rfl

/-- The ranges of the configuration and of `REM_LEN` (R23–R25, R130). -/
theorem State.Inv.ranges (hs : s.Inv) :
    s.remLen ≤ 197 ∧ 1 ≤ s.outlen ∧ s.outlen ≤ 200 ∧ 2 ≤ s.rate ∧ s.rate ≤ 198 ∧ s.rate % 2 = 0 := by
  have hlt := hs.remLen_lt
  have hrate := hs.rate_eq
  rw [rateOf_eq] at hrate
  obtain hv | hv := hs.outlen_valid
  · rw [if_neg (by omega)] at hrate; omega
  · rw [if_pos hv] at hrate; omega

/-- `DIGEST_VALID` as the invariants tie it to `FSM` (R29). -/
theorem digestValid_toNat (hs : s.Inv) : (digestValid s).toNat = if s.fsm = .finalized then 1 else 0 := by
  by_cases hf : s.fsm = .finalized
  · rw [if_pos hf, digestValid, hs.cache_valid.mpr hf]; rfl
  · rw [if_neg hf, digestValid, Bool.eq_false_of_not_eq_true (mt hs.cache_valid.mp hf)]; rfl

/-- Settles O36: each field is read off the sum of the fields. -/
theorem kstatusReportsTheFields : Obligations.KstatusReportsTheFields := by
  unfold Obligations.KstatusReportsTheFields
  intro s hs
  obtain ⟨hremLen, hpos, houtlen, hrate2, hrate, heven⟩ := hs.ranges
  have hsum := statusWord_toNat (s := s) (by omega) (by omega) (by omega)
  have hfsm := fsmNumber_lt s.fsm
  have hvalid := Bool.toNat_le (digestValid s)
  have hhalted := Bool.toNat_le s.halted
  have hcode := codeNumber_lt s.lastErr
  refine ⟨statusWord s, rfl, ?_⟩
  simp only [extractLsb'_toNat_eq_div_mod, hsum, ← digestValid_toNat hs]
  omega

end Sys2Proof.Machine
end

section
/-! Encoding and decoding agree: a packet is a header, which its command determines, and payload words that hold the
command's bytes (30_encoding.md R71–R80). -/

namespace Sys2Proof.Machine

variable {i : Instr} {op : Opcode} {w0 : Word} {ws ext payload : List Word} {len : Nat}

/-! ### Payload words (R76) -/

/-- Whole words, and then the low bytes of one more. -/
theorem unpackBytes_append_cons (ws : List Word) (w : Word) (rest : List Word) {k : Nat} (hk : k ≤ 4) :
    unpackBytes (4 * ws.length + k) (ws ++ w :: rest) = ws.flatMap wordBytes ++ (wordBytes w).take k := by
  rw [unpackBytes, List.flatMap_append, List.flatMap_cons, ← flatMap_wordBytes_length, List.take_length_add_append,
    List.take_append_of_le_length (by rw [wordBytes_length]; exact hk)]

theorem unpackBytes_cons (n : Nat) (w : Word) (ws : List Word) :
    unpackBytes (4 + n) (w :: ws) = wordBytes w ++ unpackBytes n ws := by
  rw [unpackBytes, List.flatMap_cons, ← wordBytes_length w, List.take_length_add_append]; rfl

theorem unpackBytes_getElem? (ws : List Word) {n j : Nat} (hj : j < n) :
    (unpackBytes n ws)[j]? = (ws[j / 4]?).map fun w => byteAt w (j % 4) := by
  induction ws generalizing n j with
  | nil => simp [unpackBytes]
  | cons w ws ih =>
    obtain hfirst | hlater := Nat.lt_or_ge j 4
    · rw [unpackBytes, List.flatMap_cons, List.getElem?_take_of_lt hj,
        List.getElem?_append_left (by rw [wordBytes_length]; exact hfirst), wordBytes_getElem? w j hfirst,
        Nat.div_eq_of_lt hfirst, Nat.mod_eq_of_lt hfirst]
      rfl
    · obtain ⟨m, rfl⟩ := Nat.exists_eq_add_of_le (hlater.trans hj.le)
      obtain ⟨l, rfl⟩ := Nat.exists_eq_add_of_le hlater
      rw [unpackBytes_cons, List.getElem?_append_right (by simp), wordBytes_length, Nat.add_sub_cancel_left,
        ih (by omega), Nat.add_div_left l (by decide), Nat.add_mod_left]
      rfl

/-- Packing gives back every word whose four bytes were all unpacked. -/
theorem packBytes_unpackBytes_getElem? (ws : List Word) {n k : Nat} (hk : 4 * (k + 1) ≤ n) :
    (packBytes (unpackBytes n ws))[k]? = ws[k]? := by
  induction ws generalizing n k with
  | nil => simp [unpackBytes, packBytes]
  | cons w ws ih =>
    obtain ⟨m, rfl⟩ : ∃ m, n = 4 + m := Nat.exists_eq_add_of_le (by omega)
    have hfirst : packBytes (unpackBytes (4 + m) (w :: ws)) = leWord (wordBytes w) :: packBytes (unpackBytes m ws) := by
      rw [unpackBytes_cons]; rfl
    rw [hfirst, leWord_wordBytes]
    cases k with
    | zero => rfl
    | succ k => simpa using ih (n := m) (k := k) (by omega)

/-- The padding bytes of the last packed word do not matter (R76). -/
theorem unpackBytes_of_same_payload {data : List Byte} {w last : Word} (rest : List Word) {k : Nat}
    (hpack : packBytes data = ws ++ [w]) (hk : k ≤ 4) (hlen : data.length = 4 * ws.length + k)
    (hsame : (wordBytes last).take k = (wordBytes w).take k) :
    unpackBytes data.length (ws ++ last :: rest) = data := by
  have hback := unpackBytes_packBytes data []
  rw [hpack, List.append_nil, hlen, unpackBytes_append_cons ws w [] hk] at hback
  rw [hlen, unpackBytes_append_cons ws last rest hk, hsame, hback]

/-! ### The parts of a packet (R71–R76) -/

/-- The words of a packet before its payload. -/
def headerWords : Instr → List Word
  | .kinit n => [commandWord .kinit n]
  | .kreset => [commandWord .kreset 0]
  | .kupdate data off len =>
    [commandWord .kupdate 0, BitVec.ofNat 32 data.length, BitVec.ofInt 32 off, BitVec.ofInt 32 len]
  | .kdigest => [commandWord .kdigest 0]
  | .khash n msg => [commandWord .khash n, BitVec.ofNat 32 msg.length]
  | .kpermute => [commandWord .kpermute 0]
  | .krdlane i => [commandWord .krdlane i]
  | .kstatus => [commandWord .kstatus 0]

/-- The payload bytes of a packet. -/
def payloadBytes : Instr → List Byte
  | .kupdate data _ _ => data
  | .khash _ msg => msg
  | .kinit _ | .kreset | .kdigest | .kpermute | .krdlane _ | .kstatus => []

theorem encode_eq_header_append (i : Instr) : encode i = headerWords i ++ packBytes (payloadBytes i) := by
  cases i <;> rfl

theorem padding_nil : 4 * wordsFor ([] : List Byte).length - ([] : List Byte).length = 0 := rfl

theorem paddingBytes_eq (i : Instr) :
    paddingBytes i = 4 * wordsFor (payloadBytes i).length - (payloadBytes i).length := by
  cases i with
  | kupdate => rfl
  | khash => rfl
  | _ => exact padding_nil.symm

theorem encode_length (i : Instr) : (encode i).length = (headerWords i).length + wordsFor (payloadBytes i).length := by
  rw [encode_eq_header_append, List.length_append, packBytes_length]

/-- The payload words hold the command's bytes. -/
def HoldsPayload (i : Instr) (payload : List Word) : Prop :=
  unpackBytes (payloadBytes i).length payload = payloadBytes i

theorem HoldsPayload.wordsFor_le (h : HoldsPayload i payload) : wordsFor (payloadBytes i).length ≤ payload.length := by
  have hlen := congrArg List.length h
  rw [unpackBytes_length] at hlen
  unfold wordsFor
  omega

/-! ### From the fields of `W0` to the command (R79–R82) -/

theorem decode_of_fields (ho : opcodeOf (opcField w0) = some op) (hrsv : rsvField w0 = 0)
    (himm : takesImm op = true ∨ immField w0 = 0)
    (hwhole : extWords (formatOf op) + payloadWords (formatOf op) (ext.headD 0) ≤ ext.length) :
    decode (w0 :: ext) = .command (readOperands op w0 ext)
      (1 + extWords (formatOf op) + payloadWords (formatOf op) (ext.headD 0)) := by
  have hframe : frameLength (w0 :: ext) =
      some (1 + extWords (formatOf op) + payloadWords (formatOf op) (ext.headD 0)) := by
    simp only [frameLength, ho]
    rw [if_neg (by omega)]
  rw [decode_of_complete hframe (by rw [List.length_cons]; omega)]
  simp only [decodeFramed, ho, hrsv]
  obtain himm | himm := himm <;> simp [himm]

theorem decode_commandWord {imm : Nat} (hfits : imm < 2 ^ 16) (himm : takesImm op = true ∨ imm = 0)
    (hwhole : extWords (formatOf op) + payloadWords (formatOf op) (ext.headD 0) ≤ ext.length) :
    decode (commandWord op imm :: ext) = .command (readOperands op (commandWord op imm) ext)
      (1 + extWords (formatOf op) + payloadWords (formatOf op) (ext.headD 0)) := by
  refine decode_of_fields ?_ (rsvField_commandWord op imm hfits) ?_ hwhole
  · rw [opcField_commandWord op imm hfits, opcodeOf_opcodeNumber]
  · rwa [immField_commandWord op imm hfits]

/-- A command of format R is its command word (R72). -/
theorem decode_commandWord_of_format_r {imm : Nat} (hfmt : formatOf op = .r) (hfits : imm < 2 ^ 16)
    (himm : takesImm op = true ∨ imm = 0) :
    decode (commandWord op imm :: ext) = .command (readOperands op (commandWord op imm) ext) 1 := by
  have h := decode_commandWord (ext := ext) hfits himm (by rw [hfmt]; exact Nat.zero_le _)
  rwa [hfmt] at h

/-! ### The round trip -/

theorem toNat_ofNat_length {data : List Byte} (h : fitsDlen data = true) :
    (BitVec.ofNat 32 data.length : Word).toNat = data.length := by
  rw [BitVec.toNat_ofNat, Nat.mod_eq_of_lt (of_decide_eq_true h)]

theorem payloadWords_ofNat_length {data : List Byte} {fmt : Format} (hfmt : fmt ≠ .r) (h : fitsDlen data = true) :
    payloadWords fmt (BitVec.ofNat 32 data.length) = wordsFor data.length := by
  have hlen := toNat_ofNat_length h
  cases fmt with
  | r => exact absurd rfl hfmt
  | h => rw [payloadWords, hlen]
  | u => rw [payloadWords, hlen]

theorem decode_khash_words {n : Nat} {msg : List Byte} (hn : n < 2 ^ 16) (hdlen : fitsDlen msg = true)
    (hp : HoldsPayload (.khash n msg) payload) :
    decode (headerWords (.khash n msg) ++ payload) = .command (.khash n msg) (1 + 1 + wordsFor msg.length) := by
  have hwords : wordsFor msg.length ≤ payload.length := hp.wordsFor_le
  have hpay := payloadWords_ofNat_length (fmt := .h) nofun hdlen
  have h := decode_commandWord (op := .khash) (ext := BitVec.ofNat 32 msg.length :: payload) hn (.inl rfl)
    (by simp only [formatOf, List.headD_cons, hpay, extWords, List.length_cons]; omega)
  simp only [formatOf, List.headD_cons, hpay, extWords, readOperands, immField_commandWord _ n hn,
    toNat_ofNat_length hdlen, List.drop_succ_cons, List.drop_zero] at h
  rwa [show unpackBytes msg.length payload = msg from hp] at h

theorem decode_kupdate_words {data : List Byte} {off len : Int} (hdlen : fitsDlen data = true)
    (hoff : fitsI32 off = true) (hlen : fitsI32 len = true) (hp : HoldsPayload (.kupdate data off len) payload) :
    decode (headerWords (.kupdate data off len) ++ payload) =
      .command (.kupdate data off len) (1 + 3 + wordsFor data.length) := by
  have hwords : wordsFor data.length ≤ payload.length := hp.wordsFor_le
  have hpay := payloadWords_ofNat_length (fmt := .u) nofun hdlen
  have h := decode_commandWord (op := .kupdate) (imm := 0)
    (ext := BitVec.ofNat 32 data.length :: BitVec.ofInt 32 off :: BitVec.ofInt 32 len :: payload)
    (by decide) (.inr rfl) (by simp only [formatOf, List.headD_cons, hpay, extWords, List.length_cons]; omega)
  simp only [formatOf, List.headD_cons, hpay, extWords, readOperands, toNat_ofNat_length hdlen,
    List.drop_succ_cons, List.drop_zero, toInt_ofInt_of_fits hoff, toInt_ofInt_of_fits hlen] at h
  rwa [show unpackBytes data.length payload = data from hp] at h

/-- A header and words that hold the payload decode to the command. -/
theorem decode_header_append (hwf : i.wf = true) (hp : HoldsPayload i payload) :
    decode (headerWords i ++ payload) = .command i (encode i).length := by
  cases i with
  | kinit n =>
    have hn : n < 2 ^ 16 := of_decide_eq_true hwf
    refine (decode_commandWord_of_format_r rfl hn (.inl rfl)).trans ?_
    rw [readOperands, immField_commandWord _ n hn]; rfl
  | krdlane n =>
    have hn : n < 2 ^ 16 := of_decide_eq_true hwf
    refine (decode_commandWord_of_format_r rfl hn (.inl rfl)).trans ?_
    rw [readOperands, immField_commandWord _ n hn]; rfl
  | kreset => exact decode_commandWord_of_format_r rfl (by decide) (.inr rfl)
  | kdigest => exact decode_commandWord_of_format_r rfl (by decide) (.inr rfl)
  | kpermute => exact decode_commandWord_of_format_r rfl (by decide) (.inr rfl)
  | kstatus => exact decode_commandWord_of_format_r rfl (by decide) (.inr rfl)
  | khash n msg =>
    obtain ⟨hn, hdlen⟩ := Bool.and_eq_true_iff.mp hwf
    rw [encode_length]
    exact decode_khash_words (of_decide_eq_true hn) hdlen hp
  | kupdate data off len =>
    obtain ⟨hrest, hlen⟩ := Bool.and_eq_true_iff.mp hwf
    obtain ⟨hdlen, hoff⟩ := Bool.and_eq_true_iff.mp hrest
    rw [encode_length]
    exact decode_kupdate_words hdlen hoff hlen hp

theorem decode_encode_append (rest : List Word) (hwf : i.wf = true) :
    decode (encode i ++ rest) = .command i (encode i).length := by
  have hsplit : encode i ++ rest = headerWords i ++ (packBytes (payloadBytes i) ++ rest) := by
    rw [encode_eq_header_append, List.append_assoc]
  rw [hsplit]
  exact decode_header_append hwf (unpackBytes_packBytes _ rest)

theorem decode_encode (hwf : i.wf = true) : decode (encode i) = .command i (encode i).length := by
  simpa using decode_encode_append [] hwf

/-- Settles O1: the packed payload unpacks to the command's bytes, whatever follows it. -/
theorem decodeOfEncodeIsTheCommand : Obligations.DecodeOfEncodeIsTheCommand := by
  unfold Obligations.DecodeOfEncodeIsTheCommand
  intro i rest hwf
  exact decode_encode_append rest hwf

/-- Settles O3: the last payload word counts only by its payload bytes. -/
theorem payloadBytesAndIgnoredPadding : Obligations.PayloadBytesAndIgnoredPadding := by
  unfold Obligations.PayloadBytesAndIgnoredPadding
  refine ⟨fun n ws j hj => unpackBytes_getElem? ws hj, fun i last rest hwf hpad hsame => ?_⟩
  have hpadding := paddingBytes_eq i
  have hwords := packBytes_length (payloadBytes i)
  obtain hnil | ⟨ws, w, hpack⟩ := (packBytes (payloadBytes i)).eq_nil_or_concat'
  · rw [hnil, List.length_nil] at hwords
    omega
  · have hsplit : encode i = headerWords i ++ ws ++ [w] := by
      rw [encode_eq_header_append, hpack, List.append_assoc]
    have hw : (encode i).getLastD 0 = w := by rw [hsplit, List.getLastD_concat]
    have hinit : (encode i).dropLast = headerWords i ++ ws := by rw [hsplit, List.dropLast_concat]
    have hlen : (payloadBytes i).length = 4 * ws.length + (4 - paddingBytes i) := by
      rw [hpack, List.length_append, List.length_singleton, wordsFor] at hwords
      rw [wordsFor] at hpadding
      omega
    rw [hw] at hsame
    rw [hinit, List.append_assoc]
    exact decode_header_append hwf (unpackBytes_of_same_payload rest hpack (Nat.sub_le _ _) hlen hsame)

/-! ### From a decoded command to its packet (R71–R77) -/

theorem immField_lt (w : Word) : immField w < 2 ^ 16 := by rw [immField_toNat]; omega

theorem fitsDlen_unpackBytes (dlen : Word) (ws : List Word) : fitsDlen (unpackBytes dlen.toNat ws) = true := by
  have hdlen := dlen.isLt
  rw [fitsDlen, unpackBytes_length, decide_eq_true_eq]
  omega

/-- A `DLEN` word and enough payload words: the word says the length of the payload, which they hold. -/
theorem payload_of_whole {dlen : Word} (h : wordsFor dlen.toNat ≤ payload.length) :
    BitVec.ofNat 32 (unpackBytes dlen.toNat payload).length = dlen ∧
    (unpackBytes dlen.toNat payload).length = dlen.toNat := by
  have hlen : (unpackBytes dlen.toNat payload).length = dlen.toNat := by
    rw [wordsFor] at h
    rw [unpackBytes_length]
    omega
  exact ⟨by rw [hlen, BitVec.ofNat_toNat, BitVec.setWidth_eq], hlen⟩

theorem commandWord_zero_of_fields (ho : opcodeOf (opcField w0) = some op) (hrsv : rsvField w0 = 0)
    (ht : takesImm op = false) (himm : takesImm op = true ∨ immField w0 = 0) : commandWord op 0 = w0 := by
  have hzero : immField w0 = 0 := himm.resolve_left (by simp [ht])
  exact hzero ▸ commandWord_of_fields ho hrsv

/-- What decodes to a command is well formed, and starts with the command's header and words that hold its payload. -/
theorem decode_command_packet (h : decode ws = .command i len) :
    i.wf = true ∧ len = (encode i).length ∧ ∃ payload, ws = headerWords i ++ payload ∧ HoldsPayload i payload := by
  obtain ⟨w0, ext, op, rfl, ho, hrsv, himm, hext, hlen, hwhole, rfl⟩ := decode_command_cases h
  have hword := commandWord_of_fields ho hrsv
  have hfits : fitsImm16 (immField w0) = true := decide_eq_true (immField_lt w0)
  cases op with
  | kinit => exact ⟨hfits, hlen, ext, congrArg (· :: ext) hword.symm, rfl⟩
  | krdlane => exact ⟨hfits, hlen, ext, congrArg (· :: ext) hword.symm, rfl⟩
  | kreset => exact ⟨rfl, hlen, ext, congrArg (· :: ext) (commandWord_zero_of_fields ho hrsv rfl himm).symm, rfl⟩
  | kdigest => exact ⟨rfl, hlen, ext, congrArg (· :: ext) (commandWord_zero_of_fields ho hrsv rfl himm).symm, rfl⟩
  | kpermute => exact ⟨rfl, hlen, ext, congrArg (· :: ext) (commandWord_zero_of_fields ho hrsv rfl himm).symm, rfl⟩
  | kstatus => exact ⟨rfl, hlen, ext, congrArg (· :: ext) (commandWord_zero_of_fields ho hrsv rfl himm).symm, rfl⟩
  | khash =>
    match ext, hext with
    | dlen :: payload, _ =>
      simp only [formatOf, extWords, payloadWords, List.headD_cons, List.length_cons] at hlen hwhole
      obtain ⟨hword1, hbytes⟩ := payload_of_whole (dlen := dlen) (payload := payload) (by omega)
      refine ⟨Bool.and_eq_true_iff.mpr ⟨hfits, fitsDlen_unpackBytes dlen payload⟩, ?_, payload, ?_, ?_⟩
      · rw [encode_length, hlen]
        exact congrArg (1 + 1 + wordsFor ·) hbytes.symm
      · simp only [readOperands, headerWords, List.headD_cons, List.drop_succ_cons, List.drop_zero, hword1, hword,
          List.cons_append, List.nil_append]
      · exact congrArg (unpackBytes · payload) hbytes
  | kupdate =>
    match ext, hext with
    | dlen :: off :: n :: payload, _ =>
      simp only [formatOf, extWords, payloadWords, List.headD_cons, List.length_cons] at hlen hwhole
      obtain ⟨hword1, hbytes⟩ := payload_of_whole (dlen := dlen) (payload := payload) (by omega)
      refine ⟨?_, ?_, payload, ?_, ?_⟩
      · exact Bool.and_eq_true_iff.mpr ⟨Bool.and_eq_true_iff.mpr ⟨fitsDlen_unpackBytes dlen payload,
          fitsI32_toInt off⟩, fitsI32_toInt n⟩
      · rw [encode_length, hlen]
        exact congrArg (1 + 3 + wordsFor ·) hbytes.symm
      · simp only [readOperands, headerWords, List.headD_cons, List.drop_succ_cons, List.drop_zero, hword1,
          commandWord_zero_of_fields ho hrsv rfl himm, ofInt_toInt, List.cons_append, List.nil_append]
      · exact congrArg (unpackBytes · payload) hbytes

/-- Settles O2: the header words are the encoding's, and so is a payload word without padding. -/
theorem encodeOfDecodeIsThePacket : Obligations.EncodeOfDecodeIsThePacket := by
  unfold Obligations.EncodeOfDecodeIsThePacket
  intro ws i len h
  obtain ⟨hwf, rfl, payload, rfl, hp⟩ := decode_command_packet h
  have hlen := encode_length i
  refine ⟨hwf, rfl, ?_, fun k hk => ?_⟩
  · rw [hlen, List.length_append]
    exact Nat.add_le_add_left hp.wordsFor_le _
  · rw [encode_eq_header_append]
    obtain hheader | hpayload := Nat.lt_or_ge k (headerWords i).length
    · rw [List.getElem?_append_left hheader, List.getElem?_append_left hheader]
    · have hnoPadding : 4 * (k - (headerWords i).length + 1) ≤ (payloadBytes i).length := by
        rw [paddingBytes_eq] at hk
        unfold wordsFor at hk hlen
        omega
      rw [List.getElem?_append_right hpayload, List.getElem?_append_right hpayload]
      exact (packBytes_unpackBytes_getElem? payload hnoPadding).symm.trans (congrArg (fun bs => (packBytes bs)[_]?) hp)

/-! ### Assembled lines and R90's words -/

/-- Settles O6: the assembler writes the encoding of a well-formed command. -/
theorem assembledLinesDecode : Obligations.AssembledLinesDecode := by
  unfold Obligations.AssembledLinesDecode
  refine ⟨fun l ws rest h => ?_, rfl, fun n => rfl, fun d => rfl, fun d => rfl⟩
  unfold assembleLine at h
  split_ifs at h with hwf
  rw [← Option.some.inj h]
  exact decode_encode_append rest hwf

/-- Settles O5: the decoder computes every row of R90. -/
theorem specExampleWordsDecode : Obligations.SpecExampleWordsDecode := by
  unfold Obligations.SpecExampleWordsDecode
  decide

/-! ### The rows of the opcode map (R79) -/

/-- A row's mask keeps the high half of `W0`, and all of it where the command takes no immediate. -/
theorem and_rowMask_toNat (op : Opcode) (w0 : Word) :
    (w0 &&& rowMask op).toNat = if takesImm op then w0.toNat / 2 ^ 16 * 2 ^ 16 else w0.toNat := by
  have hw0 := w0.isLt
  unfold rowMask
  split_ifs
  · have hmask : (0xFFFF0000 : Word) = BitVec.allOnes 32 <<< 16 := by decide
    rw [hmask, ← BitVec.shiftLeft_ushiftRight, BitVec.toNat_shiftLeft, BitVec.toNat_ushiftRight,
      Nat.shiftRight_eq_div_pow, Nat.shiftLeft_eq]
    omega
  · have hmask : (0xFFFFFFFF : Word) = BitVec.allOnes 32 := by decide
    rw [hmask, BitVec.and_allOnes]

theorem rowMatch_toNat (op : Opcode) : (rowMatch op).toNat = opcodeNumber op * 2 ^ 24 := by
  have hop := opcodeNumber_lt op
  rw [rowMatch, BitVec.toNat_ofNat]
  omega

theorem opcodeOf_eq_some_iff {n : Nat} : opcodeOf n = some op ↔ n = opcodeNumber op :=
  ⟨opcodeOf_eq_some, fun h => h ▸ opcodeOf_opcodeNumber op⟩

theorem and_rowMask_eq_rowMatch_iff (op : Opcode) (w0 : Word) :
    w0 &&& rowMask op = rowMatch op ↔
      opcodeOf (opcField w0) = some op ∧ rsvField w0 = 0 ∧ (takesImm op = true ∨ immField w0 = 0) := by
  rw [← BitVec.toNat_inj, and_rowMask_toNat, rowMatch_toNat, opcodeOf_eq_some_iff, opcField_toNat, rsvField_toNat,
    immField_toNat]
  have hop := opcodeNumber_lt op
  cases takesImm op with
  | true => simp only [if_true, true_or, and_true]; omega
  | false => simp only [Bool.false_eq_true, if_false, false_or]; omega

/-- Settles O4: the numbers of the masked word and of the match are compared field by field. -/
theorem maskAndMatchAreTheFieldConditions : Obligations.MaskAndMatchAreTheFieldConditions := by
  unfold Obligations.MaskAndMatchAreTheFieldConditions
  exact and_rowMask_eq_rowMatch_iff

/-- A whole packet whose `W0` matches a row decodes to the row's command. -/
theorem decode_of_row (hrow : w0 &&& rowMask op = rowMatch op)
    (hwhole : extWords (formatOf op) + payloadWords (formatOf op) (ext.headD 0) ≤ ext.length) :
    decode (w0 :: ext) = .command (readOperands op w0 ext)
      (1 + extWords (formatOf op) + payloadWords (formatOf op) (ext.headD 0)) := by
  obtain ⟨ho, hrsv, himm⟩ := (and_rowMask_eq_rowMatch_iff op w0).mp hrow
  exact decode_of_fields ho hrsv himm hwhole

theorem decode_of_row_of_format_r (hfmt : formatOf op = .r) (hrow : w0 &&& rowMask op = rowMatch op) :
    decode (w0 :: ext) = .command (readOperands op w0 ext) 1 := by
  have h := decode_of_row (ext := ext) hrow (by rw [hfmt]; exact Nat.zero_le _)
  rwa [hfmt] at h

/-- Settles O53: the literals are the rows' masks and matches. -/
theorem everyRowOfTheOpcodeMapDecodes : Obligations.EveryRowOfTheOpcodeMapDecodes := by
  unfold Obligations.EveryRowOfTheOpcodeMapDecodes
  refine ⟨fun w0 rest => ⟨fun h => ?_, fun h => ?_, ?_, fun h => ?_, ?_, fun h => ?_, fun h => ?_, fun h => ?_⟩, ?_⟩
  · exact decode_of_row_of_format_r (op := .kinit) rfl h
  · exact decode_of_row_of_format_r (op := .kreset) rfl h
  · rintro h dlen off len payload rfl hwhole
    exact decode_of_row (op := .kupdate) (ext := dlen :: off :: len :: payload) h
      (by simp only [formatOf, extWords, payloadWords, wordsFor, List.headD_cons, List.length_cons]; omega)
  · exact decode_of_row_of_format_r (op := .kdigest) rfl h
  · rintro h dlen payload rfl hwhole
    exact decode_of_row (op := .khash) (ext := dlen :: payload) h
      (by simp only [formatOf, extWords, payloadWords, wordsFor, List.headD_cons, List.length_cons]; omega)
  · exact decode_of_row_of_format_r (op := .kpermute) rfl h
  · exact decode_of_row_of_format_r (op := .krdlane) rfl h
  · exact decode_of_row_of_format_r (op := .kstatus) rfl h
  · intro w0 rest i len h
    obtain ⟨_, _, op, hws, ho, hrsv, himm, _, _, _, rfl⟩ := decode_command_cases h
    obtain ⟨rfl, rfl⟩ := List.cons.inj hws
    have hrow := (and_rowMask_eq_rowMatch_iff op w0).mpr ⟨ho, hrsv, himm⟩
    cases op <;> exact hrow

end Sys2Proof.Machine
end

section
/-! The command processor: framing, illegal and incomplete packets, and one response for each packet (30_encoding.md
R75, R78, R80–R85). -/

namespace Sys2Proof.Machine

variable {s t u : State} {i : Instr} {p : List Word} {w0 : Word} {ws ext : List Word} {len : Nat} {why : Illegal}

/-! ### The framed length (R75, R84) -/

/-- The packet length as a function of `W0` and the words that follow it, arrived or not. -/
def framedLength (w0 : Word) (ext : List Word) : Nat :=
  match opcodeOf (opcField w0) with
  | some .kupdate => 4 + wordsFor (ext.headD 0).toNat
  | some .khash => 2 + wordsFor (ext.headD 0).toNat
  | _ => 1

theorem framedLength_of_kupdate (ho : opcodeOf (opcField w0) = some .kupdate) :
    framedLength w0 ext = 4 + wordsFor (ext.headD 0).toNat := by rw [framedLength, ho]

theorem framedLength_of_khash (ho : opcodeOf (opcField w0) = some .khash) :
    framedLength w0 ext = 2 + wordsFor (ext.headD 0).toNat := by rw [framedLength, ho]

theorem frameLength_eq_framedLength (h : frameLength (w0 :: ext) = some len) : len = framedLength w0 ext := by
  unfold frameLength at h
  unfold framedLength
  cases ho : opcodeOf (opcField w0) with
  | none => simp only [ho] at h; exact (Option.some.inj h).symm
  | some op =>
    simp only [ho] at h
    split_ifs at h
    rw [← Option.some.inj h]
    cases op <;> rfl

/-- A framed length is final: words that arrive later do not change it (R80). -/
theorem frameLength_append (more : List Word) (h : frameLength ws = some len) : frameLength (ws ++ more) = some len := by
  obtain _ | ⟨w0, ext⟩ := ws
  · cases h
  · unfold frameLength at h ⊢
    simp only [List.cons_append]
    cases ho : opcodeOf (opcField w0) with
    | none => simpa only [ho] using h
    | some op =>
      simp only [ho] at h ⊢
      split_ifs at h with hshort
      rw [if_neg (by rw [List.length_append]; omega), ← Option.some.inj h]
      cases ext with
      | cons => rfl
      | nil => cases op <;> simp_all [formatOf, extWords, payloadWords]

/-- What does not frame, or is shorter than its frame, has not wholly arrived (R85). -/
theorem decode_incomplete (h : ∀ len, frameLength ws = some len → ws.length < len) : decode ws = .incomplete := by
  by_contra hcomplete
  obtain ⟨_, _, len, _, hframe, hle, _⟩ := decode_complete_cases hcomplete
  exact absurd (h len hframe) (by omega)

theorem decode_command_frame (h : decode ws = .command i len) : frameLength ws = some len ∧ len ≤ ws.length := by
  obtain ⟨w0, ext, op, rfl, ho, _, _, hext, rfl, hle, _⟩ := decode_command_cases h
  refine ⟨?_, hle⟩
  simp only [frameLength, ho]
  rw [if_neg (by omega)]

/-! ### Illegal packets (R81–R83) -/

theorem decode_illegal_of_fields (hframe : frameLength (w0 :: ext) = some len) (hle : len ≤ (w0 :: ext).length)
    (hbad : opcodeOf (opcField w0) = none ∨ rsvField w0 ≠ 0 ∨
      ∃ op, opcodeOf (opcField w0) = some op ∧ takesImm op = false ∧ immField w0 ≠ 0) :
    ∃ why, decode (w0 :: ext) = .illegal why len := by
  rw [decode_of_complete hframe hle]
  unfold decodeFramed
  cases ho : opcodeOf (opcField w0) with
  | none => exact ⟨_, rfl⟩
  | some op =>
    by_cases hrsv : rsvField w0 = 0
    · obtain hnone | hnonzero | ⟨op', hop, ht, himm⟩ := hbad
      · simp [ho] at hnone
      · exact absurd hrsv hnonzero
      · obtain rfl : op = op' := Option.some.inj (ho.symm.trans hop)
        exact ⟨.immediateNonzero, by simp [hrsv, ht, himm]⟩
    · exact ⟨.reservedNonzero, by simp [hrsv]⟩

/-- The opcodes of the commands without an immediate (R77, R82). -/
theorem exists_opcode_without_imm {opc : Nat} (h : opc ∈ [0x02, 0x03, 0x04, 0x06, 0x08]) :
    ∃ op, opcodeOf opc = some op ∧ takesImm op = false := by
  fin_cases h
  exacts [⟨.kreset, rfl, rfl⟩, ⟨.kupdate, rfl, rfl⟩, ⟨.kdigest, rfl, rfl⟩, ⟨.kpermute, rfl, rfl⟩, ⟨.kstatus, rfl, rfl⟩]

theorem illegalCommand_running (hh : s.halted = false) : illegalCommand s = raise .illegalCommand s :=
  unlessHalted_running _ hh

theorem samePorts_illegalCommand (s : State) : SamePorts s (illegalCommand s) := by
  simp [illegalCommand_eq_raise, SamePorts]

/-! ### Steps -/

theorem step_of_illegal (hr : s.resetIn = false) (hready : s.respReady = true) (hd : decode s.input = .illegal why len) :
    step s = .next (advance len (illegalCommand s)) := by
  simp [step, stepProcessor, hr, runPacket, fetch, hd, answer, hready, finish]

theorem step_of_incomplete (hr : s.resetIn = false) (hd : decode s.input = .incomplete) :
    step s = .fault .stuckAwaitingWords := by
  simp [step, stepProcessor, hr, runPacket, fetch, hd]

/-- Every packet, executed or rejected, is framed and consumed whole (R75). -/
theorem step_consumes_frame (hr : s.resetIn = false) (h : step s = .next t) :
    ∃ len, frameLength s.input = some len ∧ len ≤ s.input.length ∧ t.csp = s.csp + len ∧
      t.input = s.input.drop len := by
  obtain ⟨hreset, _⟩ | ⟨_, _, why, len, hd, rfl⟩ | ⟨_, _, i, len, u, hd, hu, rfl⟩ := step_cases h
  · simp [hr] at hreset
  · obtain ⟨_, _, _, hframe, hle, _⟩ := decode_illegal_cases hd
    obtain ⟨hcsp, hinput, _⟩ := samePorts_illegalCommand s
    exact ⟨len, hframe, hle, by rw [advance_csp, hcsp], by rw [advance_input, hinput]⟩
  · obtain ⟨hframe, hle⟩ := decode_command_frame hd
    obtain ⟨hcsp, hinput, _⟩ := exec_ports hu
    exact ⟨len, hframe, hle, by rw [advance_csp, hcsp], by rw [advance_input, hinput]⟩

/-- A step that finds a command runs it and moves past its packet (R75, R80). -/
theorem step_runs_command (hr : s.resetIn = false) (hready : s.respReady = true)
    (hd : decode s.input = .command i len) :
    ∃ t, exec i s = .next t ∧ step s = .next { t with csp := s.csp + len, input := s.input.drop len } := by
  obtain ⟨t, ht⟩ := exec_answers_next i s
  obtain ⟨hcsp, hinput, _⟩ := exec_ports ht
  refine ⟨t, ht, ?_⟩
  rw [step_command hr hready hd ht, ← hcsp, ← hinput]
  rfl

/-- Settles O7: `exec` leaves `csp` and the command stream to the step. -/
theorem stepRunsTheDecodedCommand : Obligations.StepRunsTheDecodedCommand := by
  unfold Obligations.StepRunsTheDecodedCommand
  intro s i len hr hready hd
  exact step_runs_command hr hready hd

/-- Settles O8: the length that a step consumes is the framed one. -/
theorem cspMovesByTheFramedLength : Obligations.CspMovesByTheFramedLength := by
  unfold Obligations.CspMovesByTheFramedLength
  intro s t w0 ext hr hin h
  obtain ⟨len, hframe, hle, hcsp, hinput⟩ := step_consumes_frame hr h
  rw [hin] at hframe
  exact ⟨len, hcsp, hinput, hle, frameLength_eq_framedLength hframe⟩

/-- Settles O9: each of the four conditions makes the whole packet illegal, and a running block answers it with code 4. -/
theorem illegalPacketsRaiseIllegalCommand : Obligations.IllegalPacketsRaiseIllegalCommand := by
  unfold Obligations.IllegalPacketsRaiseIllegalCommand
  intro s w0 ext len hr hready hh hin hframe hle hbad
  rw [hin] at hframe hle
  obtain ⟨why, hd⟩ := decode_illegal_of_fields hframe hle <| by
    obtain hzero | hhigh | hrsv | ⟨hopc, himm⟩ := hbad
    · exact .inl (opcodeOf_eq_none.mpr (.inl hzero))
    · exact .inl (opcodeOf_eq_none.mpr (.inr hhigh))
    · exact .inr (.inl hrsv)
    · obtain ⟨op, ho, ht⟩ := exists_opcode_without_imm hopc
      exact .inr (.inr ⟨op, ho, ht, himm⟩)
  rw [step_of_illegal hr hready (hin ▸ hd), illegalCommand_running hh]
  rfl

/-- A part of a command's words is incomplete: whole, it would frame as long as the command. -/
theorem decode_take_encode {k : Nat} (hwf : i.wf = true) (hk : k < (encode i).length) :
    decode ((encode i).take k) = .incomplete := by
  refine decode_incomplete fun len hlen => ?_
  have hframe := frameLength_append ((encode i).drop k) hlen
  rw [List.take_append_drop] at hframe
  obtain ⟨hwhole, _⟩ := decode_command_frame (decode_encode hwf)
  obtain rfl : (encode i).length = len := Option.some.inj (hwhole.symm.trans hframe)
  rw [List.length_take]
  omega

/-- Settles O10: what is shorter than its framed length is stuck, and the missing words complete the encoding. -/
theorem incompletePacketWaits : Obligations.IncompletePacketWaits := by
  unfold Obligations.IncompletePacketWaits
  refine ⟨fun s hr hshort => step_of_incomplete hr ?_, fun i s k hwf hr hready hk hin => ⟨?_, ?_⟩⟩
  · obtain hnil | ⟨w0, ext, hin, hmissing⟩ := hshort
    · rw [hnil]; rfl
    · rw [hin]
      refine decode_incomplete fun len hframe => ?_
      rw [frameLength_eq_framedLength hframe, List.length_cons]
      split at hmissing
      · next ho => rw [framedLength_of_kupdate ho, wordsFor]; omega
      · next ho => rw [framedLength_of_khash ho, wordsFor]; omega
      · exact hmissing.elim
  · exact step_of_incomplete hr (hin ▸ decode_take_encode hwf hk)
  · have hsent : (hostSend ((encode i).drop k) s).input = encode i := by
      rw [hostSend_input, hin, List.take_append_drop]
    have hd : decode (hostSend ((encode i).drop k) s).input = .command i (encode i).length := by
      rw [hsent]
      exact decode_encode hwf
    obtain ⟨t, ht, hstep⟩ := step_runs_command (s := hostSend ((encode i).drop k) s) hr hready hd
    rw [hsent, List.drop_length] at hstep
    exact ⟨t, ht, hstep⟩

/-! ### Responses (R78) -/

/-- The words are `n` bytes, four to a word, with zero padding (R78). -/
def PacksBytes (n : Nat) (out : List Word) : Prop :=
  ∃ bs : List Byte, bs.length = n ∧ out.length = (n + 3) / 4 ∧
    out.flatMap wordBytes = bs ++ List.replicate (4 * out.length - n) 0

theorem packsBytes_packBytes {n : Nat} {bs : List Byte} (h : bs.length = n) : PacksBytes n (packBytes bs) := by
  subst h
  exact ⟨bs, rfl, packBytes_length bs, packBytes_wordBytes bs⟩

/-- The payload of an `OK` response by the command's row (R78, R79). -/
def OkPayload (s : State) (out : List Word) : Instr → Prop
  | .kinit _ => out = []
  | .kreset => out = []
  | .kupdate _ _ _ => out = []
  | .kpermute => out = []
  | .kdigest => PacksBytes s.outlen out
  | .khash n _ => PacksBytes n out
  | .krdlane k => out = laneWords (laneAt s.lanes k)
  | .kstatus => out = [statusWord s]

theorem Effect.okPayload (hs : s.Inv) (h : Effect i s u p) : OkPayload s p i := by
  cases h with
  | kinit => rfl
  | kreset => rfl
  | kupdateEmpty => rfl
  | kupdate => rfl
  | kdigest =>
    rw [digestBytes_finalizeDigest hs.cache_value]
    exact packsBytes_packBytes (computeDigest_length s)
  | khash => exact packsBytes_packBytes (squeeze_length _ _)
  | kpermute => rfl
  | krdlane => rfl

/-- Every command appends one response: an error's code alone, or `OK` and the payload of the command's row. -/
theorem exec_response (hs : s.Inv) (h : exec i s = .next t) :
    ∃ code out, t.output = s.output ++ responseWords code out ∧ (code ≠ .ok → out = []) ∧
      (code = .ok → OkPayload s out i) := by
  obtain ⟨_, _, rfl⟩ | ⟨rfl, rfl⟩ | ⟨_, _, e, he, rfl⟩ | ⟨_, _, _, u, p, hu, rfl⟩ := exec_cases h
  · exact ⟨.halted, [], raise_output _ s, fun _ => rfl, nofun⟩
  · exact ⟨.ok, [statusWord s], rfl, fun hne => absurd rfl hne, fun _ => rfl⟩
  · exact ⟨e, [], raise_output e s, fun _ => rfl, fun hok => absurd hok (commandError_ne he).1⟩
  · obtain ⟨_, _, _, houtput⟩ := hu.frame
    exact ⟨.ok, p, by rw [complete_output, houtput], fun hne => absurd rfl hne, fun _ => hu.okPayload hs⟩

theorem illegalCommand_output (s : State) :
    (illegalCommand s).output = s.output ++ [if s.halted then 5 else 4] := by
  rw [illegalCommand_eq_raise, raise_output]
  cases s.halted <;> rfl

/-- Settles O23: each case of `exec` appends one response, and so does the answer to an illegal packet. -/
theorem oneResponsePerPacket : Obligations.OneResponsePerPacket := by
  unfold Obligations.OneResponsePerPacket
  refine ⟨fun i s t hs h => ?_, fun s t why len hr hd h => ?_⟩
  · obtain ⟨code, out, houtput, herror, hok⟩ := exec_response hs h
    exact ⟨code, out, houtput, herror, hok⟩
  · rw [step_illegal hr hd h, advance_output, illegalCommand_output]

end Sys2Proof.Machine
end

section
/-! The permutation core: the step mappings lane by lane, the constant tables, the rounds, and why `KeccakF` is a
bijection (40_permutation.md R100–R115). -/

namespace Sys2Proof.Machine

variable {A : Lanes}

/-! ### The test commands (R110, R112) -/

/-- Settles O34: past the halt gate, KPERMUTE is its record update and an `OK` response. -/
theorem kpermutePermutesTheLanes : Obligations.KpermutePermutesTheLanes := by
  unfold Obligations.KpermutePermutesTheLanes
  exact fun s hh => exec_kpermute_running hh

theorem laneIndexError_of_le {i : Nat} (h : i ≤ 24) : laneIndexError i = none := if_neg (Nat.not_lt.mpr h)

theorem laneIndexError_of_gt {i : Nat} (h : 24 < i) : laneIndexError i = some .outOfRange := if_pos h

/-- Settles O35: the index check passes for every lane `(x,y)` and fails above 24. -/
theorem krdlaneReadsOneLane : Obligations.KrdlaneReadsOneLane := by
  unfold Obligations.KrdlaneReadsOneLane
  refine ⟨fun x y s hh => ?_, fun i s hh hi => ?_⟩
  · rw [exec_krdlane_running _ hh, laneIndexError_of_le (by omega), checked_none, laneAt_laneIndex]
    rfl
  · rw [exec_krdlane_running _ hh, laneIndexError_of_gt hi, checked_some]
    rfl

/-! ### Rotations are linear and compose (R10) -/

theorem rotl64_xor (v w : Lane) (n : Nat) : rotl64 (v ^^^ w) n = rotl64 v n ^^^ rotl64 w n :=
  BitVec.eq_of_getLsbD_eq fun i hi => by simp only [BitVec.getLsbD_xor, rotationIsCircular _ n i hi]

theorem rotl64_rotl64 (v : Lane) (m n : Nat) : rotl64 (rotl64 v m) n = rotl64 v (m + n) :=
  BitVec.eq_of_getLsbD_eq fun i hi => by
    rw [rotationIsCircular _ n i hi, rotationIsCircular v m _ (Nat.mod_lt _ (by decide)), rotationIsCircular v _ i hi]
    congr 1
    omega

theorem rotl64_of_mod_eq_zero (v : Lane) {n : Nat} (h : n % 64 = 0) : rotl64 v n = v :=
  BitVec.eq_of_getLsbD_eq fun i hi => by
    rw [rotationIsCircular v n i hi, h]
    congr 1
    omega

theorem rotl64_injective (n : Nat) : Function.Injective (rotl64 · n) :=
  Function.LeftInverse.injective (g := (rotl64 · (64 - n % 64))) fun v =>
    (rotl64_rotl64 v n _).trans (rotl64_of_mod_eq_zero v (by omega))

theorem rotl64_zero (n : Nat) : rotl64 0 n = 0 :=
  BitVec.eq_of_getLsbD_eq fun i hi => by
    rw [rotationIsCircular 0 n i hi]
    simp

/-! ### Theta (R101) -/

theorem laneXY_theta (A : Lanes) (x y : Fin 5) : laneXY (theta A) x y = laneXY A x y ^^^ thetaEffect A x :=
  laneXY_tabulate _ x y

theorem thetaEffect_of_even (even : ∀ x, columnParity A x = 0) (x : Fin 5) : thetaEffect A x = 0 := by
  rw [thetaEffect, even, even, rotl64_zero]
  exact BitVec.xor_self

/-- Settles O38: theta XORs its effect into every lane, and the effect of even columns is 0. -/
theorem thetaByLane : Obligations.ThetaByLane := by
  unfold Obligations.ThetaByLane
  refine ⟨fun A x y => ?_, fun A even => lanes_ext fun x y => ?_⟩
  · rw [laneXY_theta, thetaEffect, ← BitVec.xor_assoc]
    rfl
  · rw [laneXY_theta, thetaEffect_of_even even]
    exact BitVec.xor_zero

/-! ### Rho and pi (R102) -/

/-- The model reads a lane of `rhoPi` from its destination; this is the source of R102's destination. -/
theorem source_of_destination : ∀ x y : Fin 5, y + 3 * (2 * x + 3 * y) = x := by decide

theorem destination_of_source : ∀ X Y : Fin 5, 2 * (X + 3 * Y) + 3 * X = Y := by decide

theorem laneXY_rhoPi (A : Lanes) (x y : Fin 5) :
    laneXY (rhoPi A) y (2 * x + 3 * y) = rotl64 (laneXY A x y) (rotationOffset x y) := by
  rw [rhoPi, laneXY_tabulate, source_of_destination]

/-- Settles O39: reading the source of a destination inverts R102's map, and lane `(0,0)` has offset 0. -/
theorem rhoPiMovesEveryLane : Obligations.RhoPiMovesEveryLane := by
  unfold Obligations.RhoPiMovesEveryLane
  refine ⟨laneXY_rhoPi, Function.bijective_iff_has_inverse.mpr ⟨fun q => (q.1 + 3 * q.2, q.1), ?_, ?_⟩, ?_⟩
  · exact fun p => Prod.ext (source_of_destination p.1 p.2) rfl
  · exact fun q => Prod.ext rfl (destination_of_source q.1 q.2)
  · exact fun A => (laneXY_rhoPi A 0 0).trans (rotl64_of_mod_eq_zero _ rfl)

/-! ### Chi and iota (R103, R106) -/

theorem laneXY_chi (A : Lanes) (x y : Fin 5) :
    laneXY (chi A) x y = laneXY A x y ^^^ (~~~laneXY A (x + 1) y &&& laneXY A (x + 2) y) :=
  laneXY_tabulate _ x y

theorem laneXY_iota (A : Lanes) (r : Fin 24) (x y : Fin 5) :
    laneXY (iota A r) x y = if x = 0 ∧ y = 0 then laneXY A 0 0 ^^^ roundConstant r else laneXY A x y := by
  split
  · next h =>
    obtain ⟨rfl, rfl⟩ := h
    exact Vector.getElem_set_self _
  · next h =>
    have elsewhere : 0 ≠ (laneIndex x y).val := fun h0 => h (laneIndex_injective (y' := 0) (Fin.ext h0.symm))
    exact Vector.getElem_set_ne _ _ elsewhere

/-- Settles O40, lane by lane of the two mappings. -/
theorem chiAndIotaByLane : Obligations.ChiAndIotaByLane := by
  unfold Obligations.ChiAndIotaByLane
  exact ⟨laneXY_chi, laneXY_iota⟩

/-! ### The constant tables (R104, R105, R114, R115) -/

/-- Settles O42: both tables are closed data, and each clause evaluates all 24 entries. -/
theorem constantTablesMatchTheirDerivations : Obligations.ConstantTablesMatchTheirDerivations := by
  unfold Obligations.ConstantTablesMatchTheirDerivations
  refine ⟨?lfsr, rfl, ?offsets, ?visits⟩
  case lfsr => decide
  case offsets => decide
  case visits => decide

/-! ### Rounds (R107, R108) -/

/-- A fold over all indices in order ends where any sequence of its steps ends. -/
theorem foldl_finRange_of_steps {α : Type} (n : Nat) (step : α → Fin n → α) (f : Nat → α)
    (steps : ∀ r : Fin n, f (r.val + 1) = step (f r.val) r) : (List.finRange n).foldl step (f 0) = f n := by
  induction n with
  | zero => rfl
  | succ n ih =>
    have before : (List.finRange n).foldl (fun a r => step a r.castSucc) (f 0) = f n := ih _ fun r => steps r.castSucc
    rw [List.finRange_succ_last, List.foldl_append, List.foldl_map, before]
    exact (steps (Fin.last n)).symm

/-- Settles O43: `KeccakF` folds the rounds in index order. -/
theorem keccakIsTwentyFourRounds : Obligations.KeccakIsTwentyFourRounds := by
  unfold Obligations.KeccakIsTwentyFourRounds
  exact fun f rounds => foldl_finRange_of_steps 24 permRound f rounds

/-! ### Iota, chi, rho and pi are injective (R109) -/

theorem iota_injective (r : Fin 24) : Function.Injective (iota · r) :=
  Function.Involutive.injective fun A => lanes_ext fun x y => by
    by_cases h : x = 0 ∧ y = 0
    · obtain ⟨rfl, rfl⟩ := h
      simp [laneXY_iota]
    · simp [laneXY_iota, h]

/-- Chi on one bit of each lane of a row. -/
def chiRow (row : Fin 5 → Bool) (x : Fin 5) : Bool := row x ^^ (!row (x + 1) && row (x + 2))

/-- R109: chi is invertible on each 5-bit row. -/
theorem chiRow_injective : Function.Injective chiRow := by decide

/-- Bit `i` of the five lanes of row `y`. -/
def rowBits (A : Lanes) (y : Fin 5) (i : Nat) (x : Fin 5) : Bool := (laneXY A x y).getLsbD i

theorem rowBits_chi (y : Fin 5) {i : Nat} (hi : i < 64) : rowBits (chi A) y i = chiRow (rowBits A y i) := by
  funext x
  simp [rowBits, chiRow, laneXY_chi, hi]

theorem chi_injective : Function.Injective chi := fun A B h => lanes_ext fun x y =>
  BitVec.eq_of_getLsbD_eq fun i hi => by
    have rows : rowBits A y i = rowBits B y i := chiRow_injective (by rw [← rowBits_chi y hi, ← rowBits_chi y hi, h])
    exact congrFun rows x

theorem rhoPi_injective : Function.Injective rhoPi := fun A B h => lanes_ext fun x y => by
  have moved : rotl64 (laneXY A x y) (rotationOffset x y) = rotl64 (laneXY B x y) (rotationOffset x y) := by
    rw [← laneXY_rhoPi, ← laneXY_rhoPi, h]
  exact rotl64_injective _ moved

/-! ### Theta is injective (R109)

Theta's action on the five column parities is `columnMix 1 1`. Over the two-element field such a mix squares to the mix
of twice the shift and twice the rotation, so its 64th power rotates by 64, which is by 0, and without a rotation the
mixes of shifts `a` and `2a` undo each other. A map with an injective power is injective. -/

/-- The columns, each XORed with the column `a` to its left and the column `a` to its right rotated by `n`. -/
def columnMix (a : Fin 5) (n : Nat) (C : Fin 5 → Lane) (x : Fin 5) : Lane :=
  C x ^^^ C (x - a) ^^^ rotl64 (C (x + a)) n

theorem columnMix_columnMix (a : Fin 5) (n : Nat) (C : Fin 5 → Lane) :
    columnMix a n (columnMix a n C) = columnMix (a + a) (n + n) C := by
  have crossTermsCancel (c l ll r r' rr : Lane) :
      (c ^^^ l ^^^ r) ^^^ (l ^^^ ll ^^^ r') ^^^ (r ^^^ r' ^^^ rr) = c ^^^ ll ^^^ rr := by
    have selfCancels (v : Lane) : v ^^^ v = 0 := BitVec.xor_self
    grind [selfCancels l, selfCancels r, selfCancels r']
  funext x
  simp only [columnMix, rotl64_xor, rotl64_rotl64, sub_add_cancel, add_sub_cancel_right, sub_sub, add_assoc]
  exact crossTermsCancel _ _ _ _ _ _

theorem columnMix_double_columnMix (a : Fin 5) (C : Fin 5 → Lane) : columnMix (a + a) 64 (columnMix a 64 C) = C := by
  have fiveColumns : ∀ a x : Fin 5, x - (a + a) - a = x + (a + a) ∧ x + (a + a) + a = x - (a + a) ∧
      x - (a + a) + a = x - a ∧ x + (a + a) - a = x + a := by decide
  funext x
  obtain ⟨leftLeft, rightRight, leftRight, rightLeft⟩ := fiveColumns a x
  simp only [columnMix, rotl64_of_mod_eq_zero _ (Nat.mod_self 64), leftLeft, rightRight, leftRight, rightLeft]
  grind

theorem columnMix_injective {k n : Nat} (hn : n * 2 ^ k = 64) (a : Fin 5) : Function.Injective (columnMix a n) := by
  induction k generalizing a n with
  | zero =>
    obtain rfl : n = 64 := by omega
    exact Function.LeftInverse.injective (columnMix_double_columnMix a)
  | succ k ih =>
    have square : Function.Injective (columnMix a n ∘ columnMix a n) := by
      rw [show columnMix a n ∘ columnMix a n = columnMix (a + a) (n + n) from funext (columnMix_columnMix a n)]
      exact ih (by rw [← hn]; ring) _
    exact square.of_comp

theorem columnParity_theta (A : Lanes) : columnParity (theta A) = columnMix 1 1 (columnParity A) := by
  funext x
  have oddlyMany : ∀ a b c d e t : Lane, (a ^^^ t) ^^^ (b ^^^ t) ^^^ (c ^^^ t) ^^^ (d ^^^ t) ^^^ (e ^^^ t) =
      (a ^^^ b ^^^ c ^^^ d ^^^ e) ^^^ t := by grind
  simp only [columnParity, laneXY_theta, oddlyMany]
  rw [columnMix, BitVec.xor_assoc (columnParity A x)]
  rfl

theorem theta_injective : Function.Injective theta := fun A B h => by
  have parities : columnParity A = columnParity B :=
    columnMix_injective (k := 6) rfl 1 (by rw [← columnParity_theta, ← columnParity_theta, h])
  refine lanes_ext fun x y => ?_
  have lanes : laneXY A x y ^^^ thetaEffect A x = laneXY B x y ^^^ thetaEffect A x := by
    rw [← laneXY_theta, h, laneXY_theta, thetaEffect, thetaEffect, parities]
  exact (BitVec.xor_left_inj _).mp lanes

/-! ### `KeccakF` is a bijection (R109) -/

theorem permRound_injective (r : Fin 24) : Function.Injective (permRound · r) :=
  (iota_injective r).comp (chi_injective.comp (rhoPi_injective.comp theta_injective))

theorem foldl_injective {α β : Type} {step : α → β → α} (h : ∀ b, Function.Injective (step · b))
    (bs : List β) : Function.Injective (bs.foldl step) := by
  induction bs with
  | nil => exact fun _ _ h => h
  | cons b bs ih => exact ih.comp (h b)

theorem finite_lanes : Finite Lanes :=
  have : Finite Lane := Finite.of_injective BitVec.toFin fun _ _ => BitVec.eq_of_toFin_eq
  Finite.of_injective laneXY fun _ _ h => lanes_ext fun x y => congrFun (congrFun h x) y

/-- Settles O44: every round is injective, and the arrays of 25 lanes are finitely many. -/
theorem keccakIsAPermutation : Obligations.KeccakIsAPermutation := by
  unfold Obligations.KeccakIsAPermutation
  have := finite_lanes
  exact Finite.injective_iff_bijective.mp (foldl_injective permRound_injective (List.finRange 24))

end Sys2Proof.Machine
end

section
/-! The sponge engine and the padding encoder: the rates, the lanes of an absorbed block, the bytes of a padded block and
of a digest (41_sponge_padding.md R130–R144). -/

namespace Sys2Proof.Machine

/-! ### Rates (R130) -/

/-- Settles O45: `200 - 2n` is in `1..200` up to 99 and not above, and 200 has a rate of its own. -/
theorem validRates : Obligations.ValidRates := by
  unfold Obligations.ValidRates
  intro n hlow hhigh
  refine ⟨?_, rateOf_eq n⟩
  rw [rateOf_eq]
  by_cases hfull : n = 200
  · simp [hfull]
  · rw [if_neg hfull]; omega

/-! ### Absorption by lanes (R132–R134) -/

variable {A : Lanes} {blk blk' : List Byte} {rate k j : Nat}

theorem xorBlock_getElem_of_lt {i : Fin 25} (hi : i.val < rate / 8) :
    (xorBlock A blk rate)[i] = A[i] ^^^ le64 ((blk.drop (8 * i.val)).take 8) := by
  rw [getElem_eq_laneXY, laneXY_xorBlock, laneIndex_column_row, if_pos hi, ← getElem_eq_laneXY]

theorem xorBlock_getElem_of_ge {i : Fin 25} (hi : rate / 8 ≤ i.val) : (xorBlock A blk rate)[i] = A[i] := by
  rw [getElem_eq_laneXY, laneXY_xorBlock, laneIndex_column_row, if_neg (Nat.not_lt.mpr hi), ← getElem_eq_laneXY]

/-- Byte `j` of the little-endian word at lane `k` is byte `8k + j` of the block (R8). -/
theorem byteAt_le64_of_block (hj : j < 8) (hin : 8 * k + j < blk.length) :
    blk[8 * k + j]? = some (byteAt (le64 ((blk.drop (8 * k)).take 8)) j) := by
  rw [byteAt_le64 _ j hj, List.getD_eq_getElem?_getD, List.getElem?_take_of_lt hj, List.getElem?_drop,
    List.getElem?_eq_getElem hin, Option.getD_some]

/-- The eight bytes of a lane below `w` are among the first `8w` bytes. -/
theorem lane_bytes_of_take {w : Nat} (hk : k < w) :
    ((blk.take (8 * w)).drop (8 * k)).take 8 = (blk.drop (8 * k)).take 8 := by
  rw [List.drop_take, List.take_take, Nat.min_eq_left (by omega)]

/-- A block is absorbed by its whole lanes only; the bytes after them are dropped (R132, D11). -/
theorem xorBlock_congr (h : blk'.take (8 * (rate / 8)) = blk.take (8 * (rate / 8))) :
    xorBlock A blk' rate = xorBlock A blk rate := by
  refine lanes_ext fun x y => ?_
  rw [laneXY_xorBlock, laneXY_xorBlock]
  split
  · next hk => rw [← lane_bytes_of_take hk, h, lane_bytes_of_take hk]
  · rfl

/-- Settles O46: `B` is the XORed state; XORing the old lane away leaves the block's little-endian word. -/
theorem absorptionIsLaneGranular : Obligations.AbsorptionIsLaneGranular := by
  unfold Obligations.AbsorptionIsLaneGranular
  intro A blk rate hlen _
  refine ⟨⟨xorBlock A blk rate, rfl, fun i hi => xorBlock_getElem_of_lt hi, fun i hi j hj => ?_,
    fun i hi => xorBlock_getElem_of_ge hi⟩, fun blk' h => congrArg keccakF (xorBlock_congr h)⟩
  have hword : (xorBlock A blk rate)[i] ^^^ A[i] = le64 ((blk.drop (8 * i.val)).take 8) := by
    rw [xorBlock_getElem_of_lt hi, BitVec.xor_comm, ← BitVec.xor_assoc, BitVec.xor_self, BitVec.zero_xor]
  rw [hword]
  exact byteAt_le64_of_block hj (by omega)

/-! ### Padding (R137) -/

variable {rem : List Byte} {n : Nat}

/-- The buffer before the last byte is padded: the remainder, `0x01`, zeros. -/
theorem padFirst_written_getElem? (hrem : rem.length < n) (hj : j < n) :
    ((writeBytes (zeroBytes n) 0 rem).set rem.length Config.padFirst)[j]? =
      if j < rem.length then rem[j]? else some (if j = rem.length then 0x01 else 0x00) := by
  rw [writeBytes_zero_tail]
  obtain hdata | rfl | hzero := Nat.lt_trichotomy j rem.length
  · rw [if_pos hdata, List.getElem?_set_ne hdata.ne', List.getElem?_append_left hdata]
  · rw [if_neg (Nat.lt_irrefl _), if_pos rfl, List.getElem?_set_self (by simp; omega), Config.padFirst]
  · rw [if_neg hzero.not_gt, if_neg hzero.ne', List.getElem?_set_ne hzero.ne, List.getElem?_append_right hzero.le,
      zeroBytes, List.getElem?_replicate_of_lt (by omega)]

/-- The padding encoder in a zero buffer of `n` bytes, `n` at least the rate, byte by byte. -/
theorem padInto_zeroBytes_getElem? (hrem : rem.length < rate) (hn : rate ≤ n) (hj : j < n) :
    (padInto (zeroBytes n) rem rate)[j]? =
      if j < rem.length then rem[j]?
      else some ((if j = rem.length then 0x01 else 0x00) ||| (if j = rate - 1 then 0x80 else 0x00)) := by
  rw [padInto, List.getElem?_modify, padFirst_written_getElem? (by omega) hj]
  by_cases hdata : j < rem.length
  · have hlast : rate - 1 ≠ j := by omega
    simp [hdata, hlast]
  · by_cases hlast : j = rate - 1
    · simp [hdata, ← hlast, Config.padLast]
    · simp [hdata, hlast, Ne.symm hlast]

/-- Settles O47: the padded block is the padding encoder in a zero buffer of exactly the rate. -/
theorem padBlockByByte : Obligations.PadBlockByByte := by
  unfold Obligations.PadBlockByByte
  intro rem rate hrem
  refine ⟨?_, fun j hj => padInto_zeroBytes_getElem? hrem (Nat.le_refl rate) hj⟩
  rw [padBlock, padInto_length _ _ _ (by rw [zeroBytes_length]; exact hrem.le), zeroBytes_length]

/-! ### Squeezing (R53, R141) -/

theorem squeeze_getElem? (hk : k < n) : (squeeze A n)[k]? = some (stateByte A k) := by
  rw [squeeze, List.getElem?_map, List.getElem?_range hk, Option.map_some]

/-- Settles O48: lane `k/8` exists for every byte of the state, the capacity bytes among them. -/
theorem squeezeIsLittleEndian : Obligations.SqueezeIsLittleEndian := by
  unfold Obligations.SqueezeIsLittleEndian
  intro A n k hk hn
  refine ⟨squeeze_length A n, ?_⟩
  rw [squeeze_getElem? hk, stateByte, laneAt_eq A (k / 8) (by omega), byteAt]

/-! ### The sponge function (R143, R144) -/

/-- The padded block of the tail is the last of the absorbed blocks (R139, R143). -/
theorem spongeHash_eq {M : List Byte} (hrate : (rate : Int) = rateOf n) :
    spongeHash M n = squeeze (absorbBlocks zeroLanes
      ((splitBlocks rate M).1 ++ [padBlock (splitBlocks rate M).2 rate]) rate) n := by
  rw [absorbBlocks_append, absorbBlocks_cons, absorbBlocks_nil, spongeHash, ← hrate, Int.toNat_natCast, absorbFinal]

/-- Settles O49: the blocks and the tail are those of `splitBlocks`, since a valid rate is positive. -/
theorem spongeHashAbsorbsTheMessage : Obligations.SpongeHashAbsorbsTheMessage := by
  unfold Obligations.SpongeHashAbsorbsTheMessage
  intro M n r hvalid hrate
  have hpos : 0 < r := by
    obtain ⟨_, hpos, _⟩ := rateOf_valid hvalid
    omega
  obtain ⟨happend, hblocks, htail⟩ := splitBlocks_spec hpos M
  exact ⟨(splitBlocks r M).1, (splitBlocks r M).2, happend.symm, hblocks, htail, splitBlocks_count hpos M,
    spongeHash_eq hrate⟩

end Sys2Proof.Machine
end

section
/-! The commands of the incremental object: what each answers, and what it leaves in the object (42_incremental.md
R160–R181). -/

namespace Sys2Proof.Machine

variable {s t u : State} {i : Instr} {p : List Word} {data : List Byte} {off len : Int} {n : Nat}

/-! ### A command of a running block: rejected by its own checks, or accepted (R207, R208) -/

/-- A running block raises the error of a command's own checks. -/
theorem exec_of_commandError {e : ResultCode} (hh : s.halted = false) (he : commandError i = some e) :
    exec i s = .next (raise e s) := by
  obtain ⟨t, ht⟩ := exec_answers_next i s
  obtain ⟨hhalted, _⟩ | ⟨rfl, _⟩ | ⟨_, _, e', he', rfl⟩ | ⟨_, _, hnone, _⟩ := exec_cases ht
  · simp [hh] at hhalted
  · cases he
  · obtain rfl : e' = e := Option.some.inj (he'.symm.trans he)
    exact ht
  · simp [he] at hnone

/-- A running block answers an accepted command with its effect and an `OK` response. -/
theorem exec_of_effect (hh : s.halted = false) (hu : Effect i s u p) : exec i s = .next (complete p u) := by
  cases hu with
  | kinit hn => rw [exec_kinit_running _ hh, hn, checked_none]
  | kreset => exact exec_kreset_running hh
  | kupdateEmpty hw => rw [exec_kupdate_running _ _ _ hh, hw, checked_none, if_pos rfl]
  | kupdate hw hl => rw [exec_kupdate_running _ _ _ hh, hw, checked_none, if_neg hl]
  | kdigest => exact exec_kdigest_running hh
  | khash hn => rw [exec_khash_running _ _ hh, hn, checked_none]
  | kpermute => exact exec_kpermute_running hh
  | krdlane hk => rw [exec_krdlane_running _ hh, hk, checked_none]

/-! ### KINIT and KRESET (R160, R161, R168) -/

theorem kinitError_of_length (h : n = 0 ∨ 200 < n) : kinitError n = some .invalidArgument := if_pos h

theorem kinitError_of_rate (h : 100 ≤ n ∧ n ≤ 199) : kinitError n = some .internalInvariantViolation := by
  have hlength : ¬(n = 0 ∨ n > Config.outlenMax) := by rw [Config.outlenMax]; omega
  have hrate : rateOf n ≤ 0 := by rw [rateOf_eq, if_neg (by omega)]; omega
  rw [kinitError, if_neg hlength, if_pos hrate]

/-- Settles O24: the three ranges are those of `kinitError`, and an accepted KINIT clears the configured object. -/
theorem kinitByOutputLength : Obligations.KinitByOutputLength := by
  unfold Obligations.KinitByOutputLength
  intro n s hh
  refine ⟨fun hvalid => ?_, fun hlength => ?_, fun hrate => ?_⟩
  · obtain ⟨hr, _⟩ := rateOf_valid hvalid
    exact ⟨(rateOf n).toNat, hr, exec_of_effect hh (.kinit (kinitError_eq_none.mpr hvalid))⟩
  · exact exec_of_commandError (i := .kinit n) hh (kinitError_of_length hlength)
  · exact exec_of_commandError (i := .kinit n) hh (kinitError_of_rate hrate)

/-- Settles O25: KRESET has no check but the halt gate. -/
theorem kresetClearsAndKeepsConfiguration : Obligations.KresetClearsAndKeepsConfiguration := by
  unfold Obligations.KresetClearsAndKeepsConfiguration
  intro s hh
  exact exec_of_effect hh .kreset

/-- Under the invariants the present length configures nothing new (R24). -/
theorem configure_outlen_self (hs : s.Inv) : configure s.outlen s = s := by
  rw [configure, ← hs.rate_eq, Int.toNat_natCast]

/-- Settles O26: the present length is valid and its rate is `RATE`, so only the clearing is left of KINIT. -/
theorem kinitWithSameLengthIsKreset : Obligations.KinitWithSameLengthIsKreset := by
  unfold Obligations.KinitWithSameLengthIsKreset
  intro s hs
  cases hh : s.halted with
  | true => rw [exec_halted (i := .kinit s.outlen) hh nofun, exec_halted (i := .kreset) hh nofun]
  | false =>
    have hkinit := exec_of_effect hh (.kinit (kinitError_eq_none.mpr hs.outlen_valid))
    rw [hkinit, exec_of_effect hh .kreset, configure_outlen_self hs]

/-- Settles O51: each of the three zeroes the lanes and empties the remainder. -/
theorem freshObjectHoldsTheEmptyStream : Obligations.FreshObjectHoldsTheEmptyStream := by
  unfold Obligations.FreshObjectHoldsTheEmptyStream
  refine ⟨fun n s t hh hvalid h => ?_, fun s t hh h => ?_, fun s t hr h => ?_⟩
  · rw [exec_of_effect hh (.kinit (kinitError_eq_none.mpr hvalid))] at h
    rw [← Host.Outcome.next.inj h]
    exact holdsStream_nil rfl rfl
  · rw [exec_of_effect hh .kreset] at h
    rw [← Host.Outcome.next.inj h]
    exact holdsStream_nil rfl rfl
  · rw [step_reset hr h]
    exact holdsStream_nil rfl rfl

/-! ### KUPDATE (R162–R167) -/

theorem windowError_of_len_neg {dlen : Nat} (h : len < 0) : windowError dlen off len = some .invalidArgument := if_pos h

theorem windowError_of_window {dlen : Nat} (hlen : 0 ≤ len) (h : off < 0 ∨ off + len > dlen) :
    windowError dlen off len = some .outOfRange := by
  rw [windowError, if_neg (by omega)]
  by_cases hoff : off < 0
  · exact if_pos hoff
  · rw [if_neg hoff, if_pos (by omega)]

/-- Settles O27: the clauses are the branches of `windowError`, and a window of no bytes has no effect. -/
theorem kupdateChecksItsWindow : Obligations.KupdateChecksItsWindow := by
  unfold Obligations.KupdateChecksItsWindow
  intro data off len s hh
  refine ⟨fun hneg => ?_, fun ⟨hlen, hwindow⟩ => ?_, fun ⟨hzero, hoff, hend⟩ => ?_⟩
  · exact exec_of_commandError (i := .kupdate data off len) hh (windowError_of_len_neg hneg)
  · exact exec_of_commandError (i := .kupdate data off len) hh (windowError_of_window hlen hwindow)
  · subst hzero
    exact exec_of_effect hh (.kupdateEmpty (windowError_eq_none.mpr (by omega)))

/-- An accepted KUPDATE of at least one byte has the effect of `absorbUpdate` on its window. -/
theorem exec_kupdate_accepted (hh : s.halted = false) (hlen : 0 < len) (hoff : 0 ≤ off)
    (hend : off + len ≤ data.length) :
    exec (.kupdate data off len) s = .next (complete [] (absorbUpdate (payloadWindow data off len) s)) :=
  exec_of_effect hh (.kupdate (windowError_eq_none.mpr ⟨hlen.le, hoff, hend⟩) hlen.ne')

/-- Settles O28: the blocks and the tail are those of `splitBlocks`, by `absorbUpdate_eq`. -/
theorem kupdateAbsorbsItsWindow : Obligations.KupdateAbsorbsItsWindow := by
  unfold Obligations.KupdateAbsorbsItsWindow
  intro data off len s hs hh hlen hoff hend
  obtain ⟨happend, hblocks, htail⟩ :=
    splitBlocks_spec (Nat.zero_lt_of_lt hs.remLen_lt) (pendingBytes s ++ payloadWindow data off len)
  refine ⟨_, _, happend.symm, hblocks, htail, ?_⟩
  rw [exec_kupdate_accepted hh hlen hoff hend, absorbUpdate_eq _ s hs.rem_size hs.remLen_lt hs.rem_tail]
  rfl

theorem pendingBytes_length (hs : s.Inv) : (pendingBytes s).length = s.remLen := by
  rw [pendingBytes, List.length_take, hs.rem_size, Nat.min_eq_left hs.remLen_lt.le]

theorem payloadWindow_length (hlen : 0 ≤ len) (hoff : 0 ≤ off) (hend : off + len ≤ data.length) :
    (payloadWindow data off len).length = len.toNat := by
  rw [payloadWindow, List.length_take, List.length_drop]
  omega

theorem permutationCount_kupdate (hh : s.halted = false) (hlen : 0 < len) (hoff : 0 ≤ off)
    (hend : off + len ≤ data.length) :
    permutationCount (.kupdate data off len) s = (s.remLen + len.toNat) / s.rate := by
  have hw : windowError data.length off len = none := windowError_eq_none.mpr ⟨hlen.le, hoff, hend⟩
  simp [permutationCount, hh, hw, hlen.ne']

/-- Settles O29: splitting the pending bytes and the window leaves as many blocks as whole rates fit. -/
theorem kupdatePermutationCount : Obligations.KupdatePermutationCount := by
  unfold Obligations.KupdatePermutationCount
  intro data off len s t hs hh hlen hoff hend h
  have hpos : 0 < s.rate := Nat.zero_lt_of_lt hs.remLen_lt
  have hcount := permutationCount_kupdate hh hlen hoff hend
  rw [exec_kupdate_accepted hh hlen hoff hend] at h
  obtain ⟨_, hblocks, _⟩ := splitBlocks_spec hpos (pendingBytes s ++ payloadWindow data off len)
  refine ⟨hcount, _, ?_, hblocks, ?_⟩
  · rw [splitBlocks_count hpos, List.length_append, pendingBytes_length hs, payloadWindow_length hlen.le hoff hend,
      hcount]
  · rw [← Host.Outcome.next.inj h, complete_lanes, absorbUpdate_lanes hs]

/-! ### KDIGEST (R172–R174) -/

theorem permutationCount_kdigest (hh : s.halted = false) :
    permutationCount .kdigest s = if s.digest.isSome then 0 else 1 := by
  rw [permutationCount, hh]; rfl

/-- Settles O30: an invalid cache is filled with the computed digest and answered; a valid one is answered whole. -/
theorem kdigestFinalizesACopyOrServesTheCache : Obligations.KdigestFinalizesACopyOrServesTheCache := by
  unfold Obligations.KdigestFinalizesACopyOrServesTheCache
  refine ⟨fun s hh hnone => ⟨computeDigest s, rfl, computeDigest_length s, ?_, ?_⟩,
    fun s d hh hsome hlength => ⟨?_, ?_⟩⟩
  · rw [exec_of_effect hh .kdigest, digestBytes_finalizeDigest (by simp [hnone]), finalizeDigest_of_none hnone]
    rfl
  · rw [permutationCount_kdigest hh, hnone]; rfl
  · have hbytes : digestBytes s = d := by
      rw [digestBytes, hsome, ← hlength]
      exact List.take_length
    rw [exec_of_effect hh .kdigest, finalizeDigest_of_some hsome, hbytes]
    rfl
  · rw [permutationCount_kdigest hh, hsome]; rfl

/-! ### KSTATUS (R180, R181) -/

/-- A malformed KSTATUS is an illegal packet of one word (R81, R82, R84). -/
theorem decode_malformed_kstatus {w0 : Word} {rest : List Word} (hopc : opcField w0 = 8)
    (hbad : rsvField w0 ≠ 0 ∨ immField w0 ≠ 0) : ∃ why, decode (w0 :: rest) = .illegal why 1 := by
  have ho : opcodeOf (opcField w0) = some .kstatus := by rw [hopc]; rfl
  have hframe : frameLength (w0 :: rest) = some 1 := by
    simp [frameLength, ho, formatOf, extWords, payloadWords]
  refine decode_illegal_of_fields hframe (by simp) ?_
  obtain hrsv | himm := hbad
  · exact .inr (.inl hrsv)
  · exact .inr (.inr ⟨.kstatus, ho, rfl, himm⟩)

/-- An illegal packet writes its response, and `LAST_ERR` unless the block is halted (R206). -/
theorem illegalCommand_eq (s : State) :
    illegalCommand s = { s with lastErr := if s.halted then s.lastErr else .illegalCommand,
                                output := s.output ++ [if s.halted then 5 else 4] } := by
  rw [illegalCommand_eq_raise]
  split_ifs <;> rfl

/-- KSTATUS changes nothing that the status word reports (R181). -/
theorem statusWord_respond (code : ResultCode) (p : List Word) (s : State) :
    statusWord (respond code p s) = statusWord s := rfl

/-- Settles O37: the halted report is the status word's, a malformed word is an illegal packet, and a response is not reported. -/
theorem kstatusCornerCases : Obligations.KstatusCornerCases := by
  unfold Obligations.KstatusCornerCases
  refine ⟨fun s hs hh => ⟨?_, fun i hi => exec_halted hh hi⟩, fun s w0 rest hr hready hin hopc hbad => ?_,
    fun s t h => ?_⟩
  · obtain ⟨sw, hexec, _, _, hhalted, hcode, _⟩ := kstatusReportsTheFields s hs
    refine ⟨sw, hexec, ?_, ?_⟩
    · rw [hhalted, hh]; rfl
    · rw [hcode, hs.halted_iff.mp hh]; rfl
  · obtain ⟨why, hd⟩ := decode_malformed_kstatus (rest := rest) hopc hbad
    rw [step_of_illegal hr hready (hin ▸ hd), illegalCommand_eq, advance, hin]
    rfl
  · obtain rfl : respond .ok [statusWord s] s = t := Host.Outcome.next.inj h
    exact ⟨statusWord s, _, rfl, rfl, by rw [respond_output, statusWord_respond]; rfl⟩

end Sys2Proof.Machine
end

section
/-! The stream along a sequence of commands, and the digest of an object that holds a stream (42_incremental.md R170,
R171). -/

namespace Sys2Proof.Machine

variable {s t u : State} {i : Instr} {p : List Word} {M : List Byte} {cmds : List Instr}

/-! ### What a command does to the object -/

/-- A command keeps the object because the block is halted or the command does not touch it, or has its effect. -/
theorem exec_object_cases (h : exec i s = .next t) :
    (SameObject s t ∧ (s.halted = true ∨ Untouching i)) ∨
    (s.halted = false ∧ ∃ u p, Effect i s u p ∧ SameObject u t) := by
  obtain ⟨hh, _, rfl⟩ | ⟨rfl, rfl⟩ | ⟨_, _, e, he, rfl⟩ | ⟨hh, _, _, u, p, hu, rfl⟩ := exec_cases h
  · exact .inl ⟨sameObject_raise _ s, .inl hh⟩
  · exact .inl ⟨sameObject_respond _ _ s, .inr (.inl rfl)⟩
  · exact .inl ⟨sameObject_raise e s, .inr (.inr (by simp [he]))⟩
  · exact .inr ⟨hh, u, p, hu, sameObject_complete p u⟩

theorem exec_keeps_inv (hs : s.Inv) (h : exec i s = .next t) : t.Inv := by
  have ht := exec_keeps_haltRecorded hs.haltRecorded h
  obtain ⟨hkept, _⟩ | ⟨_, u, p, hu, hsame⟩ := exec_object_cases h
  · exact hs.of_sameObject hkept ht
  · exact (hu.keeps_inv hs).of_sameObject hsame ht

/-- No command leaves the halt (R205, R206). -/
theorem exec_keeps_halt (hh : s.halted = true) (h : exec i s = .next t) : t.halted = true := by
  obtain ⟨_, _, rfl⟩ | ⟨_, rfl⟩ | ⟨hn, _⟩ | ⟨hn, _⟩ := exec_cases h
  · rw [raise_halted, hh, ite_self]
  · exact hh
  · simp [hh] at hn
  · simp [hh] at hn

/-- A command that keeps the stream keeps `OUTLEN` (R23). -/
theorem exec_keeps_outlen (hk : keepsStream i = true) (h : exec i s = .next t) : t.outlen = s.outlen := by
  obtain ⟨⟨_, houtlen, _⟩, _⟩ | ⟨_, u, p, hu, _, houtlen, _⟩ := exec_object_cases h
  · exact houtlen
  · obtain ⟨hkept, _⟩ | ⟨n, rfl, _⟩ := hu.configuration
    · exact houtlen.trans hkept
    · cases hk

/-! ### The stream along commands (R170) -/

/-- The table of `afterCommand`, for the commands that keep the stream, is an append of the command's own bytes. -/
theorem afterCommand_of_keepsStream (hk : keepsStream i = true) :
    afterCommand M [] M (M ++ ·) i = M ++ streamBytes i := by
  cases i with
  | kupdate data off len =>
    by_cases hw : windowError data.length off len = none
    · rw [afterCommand_kupdate _ _ _ _ hw, streamBytes, if_pos hw]
    · rw [afterCommand_of_untouching (i := .kupdate data off len) _ _ _ _ (.inr hw), streamBytes, if_neg hw,
        List.append_nil]
  | kinit => cases hk
  | kreset => cases hk
  | kpermute => cases hk
  | kdigest => exact (List.append_nil M).symm
  | khash => exact (List.append_nil M).symm
  | krdlane => exact (List.append_nil M).symm
  | kstatus => exact (List.append_nil M).symm

/-- A running block appends the bytes of a command that keeps the stream. -/
theorem exec_holdsStream (hs : s.Inv) (hM : s.HoldsStream M) (hh : s.halted = false) (hk : keepsStream i = true)
    (h : exec i s = .next t) : t.HoldsStream (M ++ streamBytes i) := by
  rw [← afterCommand_of_keepsStream hk]
  obtain ⟨hkept, hhalted | hi⟩ | ⟨_, u, p, hu, hsame⟩ := exec_object_cases h
  · simp [hh] at hhalted
  · rw [afterCommand_of_untouching _ _ _ _ hi]
    exact hM.of_sameObject hkept
  · have hi : i ≠ .kpermute := by rintro rfl; cases hk
    exact (hu.holdsStream hs hM hi).of_sameObject hsame

/-- A run of commands is its first command and then the rest. -/
theorem execAll_cons (h : execAll (i :: cmds) s = .next t) : ∃ u, exec i s = .next u ∧ execAll cmds u = .next t := by
  obtain ⟨u, hu⟩ := exec_answers_next i s
  refine ⟨u, hu, ?_⟩
  rw [execAll, hu] at h
  exact h

theorem execAll_keeps_halt (hh : s.halted = true) (h : execAll cmds s = .next t) : t.halted = true := by
  induction cmds generalizing s with
  | nil => exact Host.Outcome.next.inj h ▸ hh
  | cons i cmds ih =>
    obtain ⟨u, hu, hrest⟩ := execAll_cons h
    exact ih (exec_keeps_halt hh hu) hrest

/-- A run that ends with the block running has it running from the start. -/
theorem running_of_execAll (h : execAll cmds s = .next t) (ht : t.halted = false) : s.halted = false := by
  by_contra hh
  simp [execAll_keeps_halt (Bool.eq_true_of_not_eq_false hh) h] at ht

/-- Commands that keep the stream append their bytes to it in order, as long as the block runs; the invariants and
`OUTLEN` stay. -/
theorem execAll_holdsStream (hs : s.Inv) (hM : s.HoldsStream M) (hk : ∀ c ∈ cmds, keepsStream c = true)
    (h : execAll cmds s = .next t) (ht : t.halted = false) :
    t.Inv ∧ t.outlen = s.outlen ∧ t.HoldsStream (M ++ (cmds.map streamBytes).flatten) := by
  induction cmds generalizing s M with
  | nil =>
    obtain rfl : s = t := Host.Outcome.next.inj h
    exact ⟨hs, rfl, (List.append_nil M).symm ▸ hM⟩
  | cons i cmds ih =>
    obtain ⟨u, hu, hrest⟩ := execAll_cons h
    obtain ⟨hi, hcmds⟩ := List.forall_mem_cons.mp hk
    have hstream := exec_holdsStream hs hM (running_of_execAll h ht) hi hu
    obtain ⟨htinv, houtlen, htstream⟩ := ih (exec_keeps_inv hs hu) hstream hcmds hrest
    refine ⟨htinv, houtlen.trans (exec_keeps_outlen hi hu), ?_⟩
    rw [List.map_cons, List.flatten_cons, ← List.append_assoc]
    exact htstream

/-! ### The digest of a stream -/

/-- The object has absorbed the full blocks; KDIGEST absorbs the padded tail (R143, R172). -/
theorem computeDigest_of_holdsStream (hs : s.Inv) (hM : s.HoldsStream M) : computeDigest s = spongeHash M s.outlen := by
  obtain ⟨hlanes, hpending, _⟩ := hM
  rw [computeDigest, spongeHash, ← hs.rate_eq, Int.toNat_natCast, hlanes, hpending]

/-- Settles O50: the run keeps the invariants and the stream, and KDIGEST answers the digest that it computes of it. -/
theorem incrementalDigestIsTheSpongeHashOfTheStream : Obligations.IncrementalDigestIsTheSpongeHashOfTheStream := by
  unfold Obligations.IncrementalDigestIsTheSpongeHashOfTheStream
  intro cmds s t M hs hM hk h ht
  obtain ⟨htinv, houtlen, hstream⟩ := execAll_holdsStream hs hM hk h ht
  obtain ⟨u, hu⟩ := exec_answers_next .kdigest t
  refine ⟨u, hu, ?_⟩
  rw [exec_kdigest_output ht htinv.cache_value hu, computeDigest_of_holdsStream htinv hstream, houtlen]
  rfl

end Sys2Proof.Machine
end

section
/-! The one-shot hash: its padding scratch, its answer by the output length, and why the incremental object reaches the
same digest (43_oneshot.md R190–R195). -/

namespace Sys2Proof.Machine

variable {s t : State} {i : Instr} {n : Nat} {msg : List Byte} {cmds : List Instr}

/-! ### The one-shot path computes `SpongeHash` (R190) -/

/-- The size of the padding buffer does not matter, if it holds the rate: its first `rate` bytes are the padded
block. -/
theorem padInto_zeroBytes_take {rem : List Byte} {rate : Nat} (hrem : rem.length < rate) (hn : rate ≤ n) :
    (padInto (zeroBytes n) rem rate).take rate = padBlock rem rate := by
  have hlength : (padInto (zeroBytes rate) rem rate).length = rate := by
    rw [padInto_length _ _ _ (by rw [zeroBytes_length]; exact hrem.le), zeroBytes_length]
  rw [padBlock]
  refine List.ext_getElem? fun j => ?_
  by_cases hj : j < rate
  · rw [List.getElem?_take_of_lt hj, padInto_zeroBytes_getElem? hrem hn (hj.trans_le hn),
      padInto_zeroBytes_getElem? hrem le_rfl hj]
  · rw [List.getElem?_take_eq_none (Nat.not_lt.mp hj), List.getElem?_eq_none (by omega)]

theorem OneShotOutlen.validOutlen (hn : OneShotOutlen n) : ValidOutlen n :=
  hn.imp_left fun ⟨hlow, hhigh⟩ => ⟨by omega, hhigh⟩

/-- An accepted length has a rate that the 144-byte scratch holds (R190, R192). -/
theorem OneShotOutlen.rate_le (hn : OneShotOutlen n) : (rateOf n).toNat ≤ Config.oneShotPadBytes := by
  rw [rateOf_eq, Config.oneShotPadBytes]
  obtain ⟨hlow, hhigh⟩ | rfl := hn
  · rw [if_neg (by omega)]; omega
  · decide

/-- The one-shot path differs from `SpongeHash` in the size of its padding buffer only. -/
theorem oneShotHash_eq_spongeHash (hn : OneShotOutlen n) : oneShotHash msg n = spongeHash msg n := by
  obtain ⟨_, hpos, _⟩ := rateOf_valid hn.validOutlen
  obtain ⟨_, _, htail⟩ := splitBlocks_spec hpos msg
  simp only [oneShotHash, spongeHash, absorbFinal, padInto_zeroBytes_take htail hn.rate_le]

/-! ### KHASH by its output length (R190–R192) -/

theorem khashError_of_length (h : n = 0 ∨ 200 < n) : khashError n = some .invalidArgument := if_pos h

theorem khashError_of_rate (h : (1 ≤ n ∧ n ≤ 27) ∨ (100 ≤ n ∧ n ≤ 199)) :
    khashError n = some .internalInvariantViolation := by
  have hlength : ¬(n = 0 ∨ n > Config.outlenMax) := by rw [Config.outlenMax]; omega
  have hrate : rateOf n ≤ 0 ∨ rateOf n > Config.oneShotPadBytes := by
    rw [rateOf_eq, if_neg (by omega), Config.oneShotPadBytes]; omega
  rw [khashError, if_neg hlength, if_pos hrate]

/-- Settles O32: the three ranges are those of `khashError`, and an accepted KHASH answers the one-shot hash. -/
theorem khashByOutputLength : Obligations.KhashByOutputLength := by
  unfold Obligations.KhashByOutputLength
  intro n msg s hh
  refine ⟨fun hn => ?_, fun hlength => ?_, fun hrate => ?_⟩
  · rw [exec_of_effect hh (.khash (khashError_eq_none.mpr hn)), oneShotHash_eq_spongeHash hn]
    rfl
  · exact exec_of_commandError (i := .khash n msg) hh (khashError_of_length hlength)
  · exact exec_of_commandError (i := .khash n msg) hh (khashError_of_rate hrate)

/-! ### The response of KHASH (R190, R194) -/

/-- The response of a running block to KHASH, from the operands alone. -/
def khashResponse (n : Nat) (msg : List Byte) : List Word :=
  match khashError n with
  | some e => responseWords e []
  | none => responseWords .ok (packBytes (oneShotHash msg n))

theorem exec_khash_output (hh : s.halted = false) (h : exec (.khash n msg) s = .next t) :
    t.output = s.output ++ khashResponse n msg := by
  rw [exec_khash_running n msg hh] at h
  rw [← Host.Outcome.next.inj h, khashResponse]
  cases khashError n with
  | some e => exact raise_output e s
  | none => rfl

/-- Settles O33: both blocks append `khashResponse` of the packet. -/
theorem khashResponseIndependentOfTheState : Obligations.KhashResponseIndependentOfTheState := by
  unfold Obligations.KhashResponseIndependentOfTheState
  intro n msg s₁ s₂ t₁ t₂ hh₁ hh₂ h₁ h₂
  exact ⟨khashResponse n msg, exec_khash_output hh₁ h₁, exec_khash_output hh₂ h₂⟩

/-! ### Commands that cannot halt the block (R205) -/

/-- A command halts the block by the fatal error of its own checks only. -/
theorem exec_halted_of_not_fatal (hi : commandError i ≠ some .internalInvariantViolation) (h : exec i s = .next t) :
    t.halted = s.halted := by
  obtain ⟨_, _, rfl⟩ | ⟨_, rfl⟩ | ⟨_, _, e, he, rfl⟩ | ⟨_, _, _, u, p, hu, rfl⟩ := exec_cases h
  · rfl
  · rfl
  · have hfatal : e ≠ .internalInvariantViolation := by rintro rfl; exact hi he
    rw [raise_halted, if_neg hfatal]
  · obtain ⟨_, hhalted, _⟩ := hu.frame
    exact hhalted

theorem execAll_halted_of_not_fatal (hc : ∀ c ∈ cmds, commandError c ≠ some .internalInvariantViolation)
    (h : execAll cmds s = .next t) : t.halted = s.halted := by
  induction cmds generalizing s with
  | nil => rw [Host.Outcome.next.inj h]
  | cons i cmds ih =>
    obtain ⟨u, hu, hrest⟩ := execAll_cons h
    obtain ⟨hi, hcmds⟩ := List.forall_mem_cons.mp hc
    exact (ih hcmds hrest).trans (exec_halted_of_not_fatal hi hu)

/-- KUPDATE has no fatal error (R163). -/
theorem windowError_not_fatal (dlen : Nat) (off len : Int) :
    windowError dlen off len ≠ some .internalInvariantViolation := by
  rw [windowError]
  split_ifs <;> nofun

/-! ### One-shot and incremental agree (R193) -/

/-- What an accepted KINIT leaves: a running block whose object is configured for `n` and holds the empty stream. -/
theorem exec_kinit_fresh (hh : s.halted = false) (hn : ValidOutlen n) (h : exec (.kinit n) s = .next t) :
    t.halted = false ∧ t.outlen = n ∧ t.HoldsStream [] := by
  rw [exec_of_effect hh (.kinit (kinitError_eq_none.mpr hn))] at h
  obtain rfl := Host.Outcome.next.inj h
  exact ⟨hh, rfl, holdsStream_nil rfl rfl⟩

/-- Settles O52: no KUPDATE halts the block, so O50 gives the digest of the windows, which O32 gives for KHASH. -/
theorem oneShotAgreesWithIncremental : Obligations.OneShotAgreesWithIncremental := by
  unfold Obligations.OneShotAgreesWithIncremental
  intro n updates s a b c d hs hh hn hupdates ha hb hc hd
  obtain ⟨harun, houtlen, hstream⟩ := exec_kinit_fresh hh hn.validOutlen ha
  have hkeep : ∀ i ∈ updates, keepsStream i = true := by
    intro i hi
    obtain ⟨data, off, len, rfl⟩ := hupdates i hi
    rfl
  have hnonfatal : ∀ i ∈ updates, commandError i ≠ some .internalInvariantViolation := by
    intro i hi
    obtain ⟨data, off, len, rfl⟩ := hupdates i hi
    exact windowError_not_fatal data.length off len
  have hbrun : b.halted = false := (execAll_halted_of_not_fatal hnonfatal hb).trans harun
  obtain ⟨c', hc', hcout⟩ := incrementalDigestIsTheSpongeHashOfTheStream updates a b [] (exec_keeps_inv hs ha) hstream
    hkeep hb hbrun
  obtain rfl : c' = c := Host.Outcome.next.inj (hc'.symm.trans hc)
  obtain ⟨haccepted, _⟩ := khashByOutputLength n (updates.map streamBytes).flatten s hh
  rw [List.nil_append, houtlen] at hcout
  exact ⟨_, hcout, by rw [← Host.Outcome.next.inj ((haccepted hn).symm.trans hd)]⟩

end Sys2Proof.Machine
end

section
/-! Errors: what a halted block answers, and what a rejected command or an illegal packet leaves (60_exceptions.md
R205–R208). -/

namespace Sys2Proof.Machine

variable {s t : State} {i : Instr} {code : ResultCode} {out : List Word}

/-- Settles O21: KSTATUS has no halt gate, every other command meets it before its own checks, and so does an illegal
packet. -/
theorem haltedRejectsAllButKstatus : Obligations.HaltedRejectsAllButKstatus := by
  unfold Obligations.HaltedRejectsAllButKstatus
  refine ⟨fun s _ => rfl, fun i s hh hi => exec_halted hh hi, fun s why len hh hr hready hd => ?_⟩
  have hraise : illegalCommand s = raise .halted s := unlessHalted_halted _ hh
  rw [step_of_illegal hr hready hd, hraise]
  rfl

/-- A command whose response is an error has raised that error, and done nothing else (R208). -/
theorem exec_error (h : exec i s = .next t) (hout : t.output = s.output ++ responseWords code out)
    (herror : code ≠ .ok) : t = raise code s := by
  obtain ⟨_, _, rfl, ht⟩ | ⟨_, hok, _⟩ | ⟨_, _, _, ht⟩ | ⟨_, _, hok, _⟩ := exec_code_cases h hout
  · exact ht
  · exact absurd hok herror
  · exact ht
  · exact absurd hok herror

/-- The response of a raised error is its code alone (R78). -/
theorem payload_of_raise (h : (raise code s).output = s.output ++ responseWords code out) : out = [] := by
  rw [raise_output] at h
  obtain ⟨_, hpayload⟩ := List.cons.inj (List.append_cancel_left h)
  exact hpayload.symm

theorem illegalCommand_halted (s : State) : (illegalCommand s).halted = s.halted := by rw [illegalCommand_eq]

/-- Settles O22: a rejected command is one raised error, which writes `LAST_ERR`, `HALTED` and the response only. -/
theorem errorsArePreciseWithoutSideEffects : Obligations.ErrorsArePreciseWithoutSideEffects := by
  unfold Obligations.ErrorsArePreciseWithoutSideEffects
  refine ⟨fun i s t code out h hout herror => ?_, fun s t why len hr hd h => ?_⟩
  · have hports : SamePorts s t := exec_ports h
    obtain rfl := exec_error h hout herror
    exact ⟨payload_of_raise hout, sameObject_raise code s, hports, raise_lastErr code s, raise_halted code s⟩
  · obtain rfl := step_illegal hr hd h
    obtain ⟨hcsp, hinput, _⟩ := samePorts_illegalCommand s
    exact ⟨(sameObject_illegalCommand s).trans (sameObject_advance len _), illegalCommand_halted s,
      illegalCommand_lastErr s, by rw [advance_csp, hcsp], by rw [advance_input, hinput]⟩

end Sys2Proof.Machine
end

section
/-! Hardware reset and the held response path (70_reset_and_hazards.md R230, R231, R247). -/

namespace Sys2Proof.Machine

variable {s t : State}

/-- Every answer goes through the response path, so a held block has no next state (R247). -/
theorem step_ne_next_of_held (hr : s.resetIn = false) (hheld : s.respReady = false) : step s ≠ .next t := by
  intro h
  obtain ⟨hreset, _⟩ | ⟨_, hready, _⟩ | ⟨_, hready, _⟩ := step_cases h
  · simp [hr] at hreset
  · simp [hheld] at hready
  · simp [hheld] at hready

theorem answer_of_held (len : Nat) (o : Host.Outcome State Fault Refusal) (hheld : s.respReady = false) :
    answer len o s = .fault .heldAwaitingResponse := by
  simp [answer, hheld]

/-- A whole packet, illegal or not, is held before its command has an effect (R247, log entry 2). -/
theorem runPacket_of_held {d : Decoded} (hheld : s.respReady = false) (hwhole : d ≠ .incomplete) :
    runPacket d s = .fault .heldAwaitingResponse := by
  cases d with
  | incomplete => exact absurd rfl hwhole
  | illegal why len => exact answer_of_held len _ hheld
  | command i len => exact answer_of_held len _ hheld

theorem step_of_no_reset (hr : s.resetIn = false) : step s = runPacket (decode s.input) s := by
  simp [step, stepProcessor, fetch, hr]

/-- Asserted reset makes the step, whatever else the state holds (R212, R230). -/
theorem step_of_reset (hr : s.resetIn = true) : step s = .next (hardwareReset s) := by
  simp [step, stepProcessor, hr]

/-- Settles O11: a packet's outcome passes `answer`, which refuses it while the response path is not free. -/
theorem heldWhileResponsesAreRefused : Obligations.HeldWhileResponsesAreRefused := by
  unfold Obligations.HeldWhileResponsesAreRefused
  intro s hr hheld
  refine ⟨fun t => step_ne_next_of_held hr hheld, fun hwhole => ?_⟩
  rw [step_of_no_reset hr, runPacket_of_held hheld hwhole]

/-- Settles O12: an asserted reset is the step, and without one a halted block stays halted. -/
theorem hardwareResetRestoresEverything : Obligations.HardwareResetRestoresEverything := by
  unfold Obligations.HardwareResetRestoresEverything
  refine ⟨fun s hr => ⟨hardwareReset s, step_of_reset hr, ?_⟩, fun s t hh h hrun => ?_⟩
  · simp [zeroLanes, zeroBytes]
  · by_contra hr
    obtain ⟨hhalt, _⟩ := onlyHardwareResetLeavesTheHalt s t hh (Bool.eq_false_of_not_eq_true hr) h
    simp [hrun] at hhalt

end Sys2Proof.Machine
end
